-- ==== Sys2Proof/Word.lean ====
section
/-! DEFINITION. The machine's bit-vector types (spec R7, R30, R50). -/

namespace Sys2Proof

/-- A word: 8 bits, bit 7 the most significant (R7). A memory cell, an instruction, the accumulator. -/
abbrev Word := BitVec 8

/-- An address or a program counter: 5 bits, 0 to 31 (R12, R30). -/
abbrev Addr := BitVec 5

/-- The operand field of an instruction: 5 bits, 0 to 31, unsigned (R50, R55). -/
abbrev Operand := BitVec 5

end Sys2Proof
end

