-- ==== Sys2Proof/Syntax.lean ====
section
/-! DEFINITION. The eight opcodes and the eight instructions (spec R54, opcode_table.json). -/

namespace Sys2Proof

/-- The opcode enumeration of R54, in the order of its numbers 0 to 7. -/
inductive Opcode where
  | clear | inc | add | dec | jmp | bnz | load | store
  deriving DecidableEq, Repr

/-- An instruction: one constructor per row of the opcode table. Every one carries the 5 operand bits, those
that CLEAR, INC and DEC ignore too, because the decoder delivers them and the step event carries them (R56, R82). -/
inductive Instr where
  /-- CLEAR, `000kkkkk`, `k` ignored (R90). -/
  | clear (k : Operand)
  /-- INC, `001kkkkk`, `k` ignored (R91). -/
  | inc (k : Operand)
  /-- ADD `k`, `010kkkkk`, an unsigned immediate (R92). -/
  | add (k : Operand)
  /-- DEC, `011kkkkk`, `k` ignored (R93). -/
  | dec (k : Operand)
  /-- JMP `a`, `100aaaaa`, an absolute target (R100). -/
  | jmp (a : Operand)
  /-- BNZ `a` (BRANCH_IF_NONZERO), `101aaaaa`, an absolute target (R101). -/
  | bnz (a : Operand)
  /-- LOAD `a`, `110aaaaa`, an absolute data address (R110). -/
  | load (a : Operand)
  /-- STORE `a`, `111aaaaa`, an absolute data address (R111). -/
  | store (a : Operand)
  deriving DecidableEq, Repr

end Sys2Proof
end

