-- ==== Sys2Proof/Decode.lean ====
section
/-! DEFINITION. The instruction decoder, total over all 256 words (spec R51, R54, R57), and the encoder (R52). -/

namespace Sys2Proof

/-- The opcode of a word: bits 7, 6, 5, read off the table of R54. Eight patterns, eight opcodes: none is illegal. -/
def opcodeOf (w : Word) : Opcode :=
  match w.getLsbD 7, w.getLsbD 6, w.getLsbD 5 with
  | false, false, false => .clear
  | false, false, true  => .inc
  | false, true,  false => .add
  | false, true,  true  => .dec
  | true,  false, false => .jmp
  | true,  false, true  => .bnz
  | true,  true,  false => .load
  | true,  true,  true  => .store

/-- The operand of a word: bits 4 to 0 (R51). -/
def operandOf (w : Word) : Operand := w.extractLsb' 0 5

/-- The instruction with a given opcode and operand (R54, R55). -/
def Instr.ofFields (o : Opcode) (k : Operand) : Instr :=
  match o with
  | .clear => .clear k
  | .inc   => .inc k
  | .add   => .add k
  | .dec   => .dec k
  | .jmp   => .jmp k
  | .bnz   => .bnz k
  | .load  => .load k
  | .store => .store k

/-- The opcode of an instruction. -/
def Instr.opcode : Instr → Opcode
  | .clear _ => .clear
  | .inc _   => .inc
  | .add _   => .add
  | .dec _   => .dec
  | .jmp _   => .jmp
  | .bnz _   => .bnz
  | .load _  => .load
  | .store _ => .store

/-- The operand bits of an instruction, ignored ones included (R56, R82). -/
def Instr.operand : Instr → Operand
  | .clear k | .inc k | .add k | .dec k | .jmp k | .bnz k | .load k | .store k => k

/-- The decoder: a pure, total function of one word (R51, R57). -/
def decode (w : Word) : Instr := Instr.ofFields (opcodeOf w) (operandOf w)

/-- The 3-bit number of an opcode, as R54 enumerates them. -/
def Opcode.bits : Opcode → BitVec 3
  | .clear => 0#3
  | .inc   => 1#3
  | .add   => 2#3
  | .dec   => 3#3
  | .jmp   => 4#3
  | .bnz   => 5#3
  | .load  => 6#3
  | .store => 7#3

/-- `Encode(opcode, operand) = opcode * 32 + operand` (R52): the opcode above the operand. -/
def encodeFields (o : Opcode) (k : Operand) : Word := o.bits ++ k

/-- The one word of an instruction (R50, R52). -/
def encode (i : Instr) : Word := encodeFields i.opcode i.operand

/-- `operand_required(opcode)`: false only for CLEAR, INC and DEC (R62). It also says when the operand of a
step event is applicable (R82). -/
def operandRequired : Opcode → Bool
  | .clear | .inc | .dec => false
  | .add | .jmp | .bnz | .load | .store => true

/-- The decoder on a word of the opcode table's numbering: one 8-bit word, nothing longer or shorter (R53). -/
def decodeTableWord (nbits w : Nat) : Option Instr :=
  if nbits = 8 ∧ w < 256 then some (decode (BitVec.ofNat 8 w)) else none

end Sys2Proof
end

