-- ==== Sys2Proof/Config.lean ====
section
/-! DEFINITION. The constants of the architecture (spec R5). All are fixed by the source and none is an
argument of the model. The core leaves nothing implementation-defined and no value free
(93_implementation_defined.md section 1), so no opaque constant stands here. -/

namespace Sys2Proof.Config

/-- `MEM_WORDS`: the number of memory words, addresses 0 to 31 (R5, R30). -/
def memWords : Nat := 32

/-- `STEP_BUDGET`: the number of steps a run executes unless the observer aborts it (R5, R80). A different
constant from `memWords`, though both are 32. -/
def stepBudget : Nat := 32

/-- What a memory word that nothing listed gives reads as: `0x00`, the word every address holds that the
program text does not reach (R20, R60, R142). Log entry 2. -/
def unlistedWord : Word := 0x00#8

end Sys2Proof.Config
end

