-- ==== Sys2Proof/WellFormed.lean ====
section
/-! DEFINITION. What is well formed: every instruction (spec R57), and a memory in its canonical form. -/

namespace Sys2Proof

/-- Every instruction is well formed: the operand's range 0 to 31 is the type of its field, all its values are
legal for every opcode, and no word is illegal or reserved (R55, R57). There is nothing to check. -/
def Instr.wf : Instr → Bool
  | .clear _ | .inc _ | .add _ | .dec _ | .jmp _ | .bnz _ | .load _ | .store _ => true

namespace Machine

/-- The memory: the words that differ from `Config.unlistedWord`, by address (R15, R30). -/
abbrev Memory := List Host.Cell

/-- First check: every listed address exists (R30: nothing above address 31). -/
abbrev Memory.InRange (m : Memory) : Prop := ∀ c ∈ m, c.1 < Config.memWords

/-- Second check: the addresses rise strictly, so none is listed twice. -/
abbrev Memory.Rising (m : Memory) : Prop := m.Pairwise (fun c d => c.1 < d.1)

/-- Third check: no entry holds what an unlisted address reads as anyway. -/
abbrev Memory.NoUnlisted (m : Memory) : Prop := ∀ c ∈ m, c.2 ≠ Config.unlistedWord

/-- The canonical form: equal memories are equal lists. -/
abbrev Memory.wf (m : Memory) : Prop := m.InRange ∧ m.Rising ∧ m.NoUnlisted

end Machine

end Sys2Proof
end

