-- ==== Sys2Proof/Machine/State.lean ====
section
/-! DEFINITION. The whole state of the core as plain data (spec R10), the observer's side of its interface
(R82, R83, R86), the reasons a step can stop, and the state after reset (R20). -/

namespace Sys2Proof.Machine

/-- The run status (R17, the names by the spec's decision D7). -/
inductive Status where
  /-- A step is enabled. -/
  | running
  /-- 32 steps have been executed. -/
  | done
  /-- The observer answered abort after some step. -/
  | aborted
  deriving DecidableEq, Repr

/-- The observer's answer to a step event (R83). -/
inductive Reply where
  /-- `continue`: the run goes on, or ends as `done` if that was the 32nd step. -/
  | cont
  /-- `abort`: the run ends at once. -/
  | abort
  deriving DecidableEq, Repr

/-- The step event the core hands to the observer after each step (R82). -/
structure StepEvent where
  /-- `steps` before the step. -/
  index   : BitVec 5
  /-- The opcode of the instruction executed. -/
  opcode  : Opcode
  /-- Its operand bits, always delivered. -/
  operand : Operand
  /-- The accumulator after the step. -/
  acc     : Word
  /-- The program counter after the step. -/
  pc      : Addr
  /-- A copy of all of memory after the step. -/
  mem     : Memory
  deriving DecidableEq, Repr

/-- A memory image: the 32 words the memory holds at reset, every one defined (R20, R142). -/
abbrev Image := Vector Word 32

/-- The state. The first five fields are the spec's closed tuple (R10). `Z` is not state (R14). The last three
are the model's own and stand for the core's interface to the observer. -/
structure State where
  /-- The program counter (R12). -/
  pc       : Addr
  /-- The accumulator, the only register of the register file (R11). -/
  acc      : Word
  /-- The one memory (R15, R30). -/
  mem      : Memory
  /-- The steps executed so far in the run, 0 to 32 (R16). -/
  steps    : Nat
  /-- The run status (R17). -/
  status   : Status
  /-- An event has been emitted and its answer was not there when the core looked (R84, R131). Log entry 6. -/
  awaiting : Bool
  /-- What the core will find each time it looks for an answer, first to come first: `some r` an answer,
  `none` no answer yet (`obs_ready` low, R86). Past the end of the list the observer always answers
  `continue`. Log entry 5. -/
  replies  : List (Option Reply)
  /-- The step events emitted so far in the run, oldest first: the run's trace (R81, R82). Log entry 7. -/
  trace    : List StepEvent
  deriving DecidableEq, Repr

/-- The faults: none. The core raises no exception, ever, and its step has no fault (R57, R74, R120). -/
inductive Fault where
  deriving DecidableEq, Repr

/-- The refusals. -/
inductive Refusal where
  /-- Raised only by a refused arm of `exec`, for an instruction without a meaning. Safe. No arm of this
  model is refused, so nothing raises it. -/
  | notModelled (mnemonic : String)
  deriving DecidableEq, Repr

/-- The machine right after reset (R20), its memory the empty program's image, 32 words `0x00` (R60, R142),
and its observer one that always answers `continue`. Log entries 2, 3, 5, 6, 7. For another image or other
answers see `State.launch`. -/
def State.reset : State where
  pc       := 0
  acc      := 0
  mem      := []
  steps    := 0
  status   := .running
  awaiting := false
  replies  := []
  trace    := []

end Sys2Proof.Machine
end

