-- ==== Sys2Proof/Machine/Flags.lean ====
section
/-! DEFINITION. The condition-flag logic (spec R14): the zero flag is the only flag, and it is not stored. -/

namespace Sys2Proof.Machine

/-- `Z = 1` exactly when all eight bits are 0 (R14). -/
def zeroFlag (a : Word) : Bool := a == 0

/-- The flag `Z` of a state, a function of its accumulator (R14). -/
def State.z (s : State) : Bool := zeroFlag s.acc

end Sys2Proof.Machine
end

