-- ==== Sys2Proof/Machine/Operands.lean ====
section
/-! DEFINITION. The operand forms (spec R55, R112): an immediate, an absolute instruction address, an absolute
data address. The operand is never sign-extended, scaled or shifted, and there is no other form. -/

namespace Sys2Proof.Machine

/-- ADD's operand: an immediate, `zext_8(operand)`, 0 to 31 (R55, R92). -/
def immediate (k : Operand) : Word := k.setWidth 8

/-- The operand of JMP and BNZ: an absolute instruction address (R55, R102). -/
def target (k : Operand) : Addr := k

/-- The operand of LOAD and STORE: an absolute data address, `ea = operand` (R55, R112). -/
def dataAddress (k : Operand) : Addr := k

end Sys2Proof.Machine
end

