-- ==== Sys2Proof/Machine/Ops.lean ====
section
/-! DEFINITION. The shared operations: memory read and write (spec R33, R34), the ALU (R94), the register writes,
the program-counter multiplexer (R75), the fetch (R72), the step event (R82), the observer's answer (R80, R83) and
reset with an image (R20, R140). The core has no exception to take and none to return from (R120, R125), so there
is no such operation. -/

namespace Sys2Proof.Machine

/-! ### Memory -/

/-- The word listed for an address, or what an unlisted address reads as. -/
def Memory.wordAt : Memory → Nat → Word
  | [], _ => Config.unlistedWord
  | (b, v) :: rest, a => if b = a then v else Memory.wordAt rest a

/-- `MemRead(addr, 1) = mem[addr]`: total, no side effect, cannot fail (R33). -/
def Memory.read (m : Memory) (a : Addr) : Word := m.wordAt a.toNat

/-- Put an entry in its place by address. -/
def Memory.insertCell : Memory → Nat → Word → Memory
  | [], a, v => [(a, v)]
  | (b, x) :: rest, a, v =>
    if a < b then (a, v) :: (b, x) :: rest else (b, x) :: Memory.insertCell rest a v

/-- The memory without what is listed for an address. -/
def Memory.erase (m : Memory) (a : Nat) : Memory := m.filter (fun c => c.1 != a)

/-- `MemWrite(addr, 1, v)`: `mem[addr]` becomes `v`, the 31 other words stay; cannot fail (R34). Writing what an
unlisted address reads as removes the entry, which keeps the canonical form. -/
def Memory.write (m : Memory) (a : Addr) (v : Word) : Memory :=
  if v = Config.unlistedWord then m.erase a.toNat else (m.erase a.toNat).insertCell a.toNat v

/-- The memory that holds an image: address `a` holds word `a` (R20, R142). -/
def Memory.ofImage (img : Image) : Memory :=
  (img.toList.zipIdx.map (fun p => (p.2, p.1))).filter (fun c => c.2 != Config.unlistedWord)

/-! ### The ALU -/

/-- The ALU's four operations (R94, R95). -/
inductive AluOp where
  | clr | inc | add | dec
  deriving DecidableEq, Repr

/-- The ALU: the true integer result modulo 256, overflow silent (R94). -/
def alu (op : AluOp) (a : Word) (b : Operand) : Word :=
  match op with
  | .clr => 0
  | .inc => a + 1
  | .add => a + immediate b
  | .dec => a - 1

/-! ### Registers and the program counter -/

/-- Write the accumulator (R11). -/
def State.setAcc (s : State) (v : Word) : State := { s with acc := v }

/-- Write the program counter (R12). -/
def State.setPc (s : State) (a : Addr) : State := { s with pc := a }

/-- The sequential address, computed in 5 bits: from 31 it is 0 (R13, the spec's decision D1; log entry 1). -/
def nextAddr (a : Addr) : Addr := a + 1

/-- The program-counter multiplexer: the target when taken, else the sequential address; no third source (R75). -/
def pcMux (take : Bool) (tgt pc : Addr) : Addr := if take then tgt else nextAddr pc

/-- Advance to the sequential address (R13). -/
def State.advance (s : State) : State := s.setPc (nextAddr s.pc)

/-- Read a word of memory (R33). -/
def State.memRead (s : State) (a : Addr) : Word := s.mem.read a

/-- Write a word of memory (R34). -/
def State.memWrite (s : State) (a : Addr) (v : Word) : State := { s with mem := s.mem.write a v }

/-- Run the ALU on the accumulator and an operand, write the accumulator and fall through: what CLEAR, INC, ADD
and DEC share (41_accumulator_alu.md). -/
def State.aluStep (s : State) (op : AluOp) (k : Operand) : State := (s.setAcc (alu op s.acc k)).advance

/-! ### Fetch and decode -/

/-- The word at the program counter: an ordinary read of the unified memory (R72). -/
def State.fetch (s : State) : Word := s.memRead s.pc

/-- The instruction the next step executes (R73). -/
def State.decoded (s : State) : Instr := decode s.fetch

/-! ### The step event and the observer -/

/-- The event of a step that executed `i` and left `s`, whose `steps` has not been counted up yet (R74, R82). -/
def State.event (s : State) (i : Instr) : StepEvent where
  index   := BitVec.ofNat 5 s.steps
  opcode  := i.opcode
  operand := i.operand
  acc     := s.acc
  pc      := s.pc
  mem     := s.mem

/-- Emit the step event, then count the step (R74, R16). -/
def State.report (s : State) (i : Instr) : State :=
  { s with trace := s.trace ++ [s.event i], steps := s.steps + 1 }

/-- The observer has answered: an abort is examined first, then the step count (R80, R83, R124). -/
def State.answered (s : State) : Reply → State
  | .abort => { s with status := .aborted, awaiting := false }
  | .cont =>
    if s.steps = Config.stepBudget then { s with status := .done, awaiting := false }
    else { s with awaiting := false }

/-- Look for the observer's answer to the event just emitted. With none there yet the core waits (R84, R86). -/
def State.takeReply (s : State) : State :=
  match s.replies with
  | [] => s.answered .cont
  | some r :: rest => { s with replies := rest }.answered r
  | none :: rest => { s with replies := rest, awaiting := true }

/-- What follows the effect of an instruction in a step: the event, the count, the observer (R74, R80). -/
def State.finish (s : State) (i : Instr) : State := (s.report i).takeReply

/-! ### Reset -/

/-- Reset with an image and the observer's answers to come: the start of a run (R20, R140, R142). -/
def State.launch (img : Image) (replies : List (Option Reply)) : State :=
  { State.reset with mem := Memory.ofImage img, replies := replies }

/-- Reset applied in any state, a running one too: a new run, nothing survives (R86, the spec's decision D16;
log entry 15). -/
def State.applyReset (_ : State) (img : Image) (replies : List (Option Reply)) : State := State.launch img replies

end Sys2Proof.Machine
end

