-- ==== Sys2Proof/Machine/Arithmetic.lean ====
section
/-! DEFINITION. CLEAR, INC, ADD, DEC (spec 41_accumulator_alu.md). Each falls through, touches no memory word and
cannot raise an exception. -/

namespace Sys2Proof.Machine

/-- CLEAR: `acc <- 0`; `pc <- pc + 1` (R90). -/
def execClear (k : Operand) (s : State) : Host.Outcome State Fault Refusal := .next (s.aluStep .clr k)

/-- INC: `acc <- acc + 1`; `pc <- pc + 1` (R91). -/
def execInc (k : Operand) (s : State) : Host.Outcome State Fault Refusal := .next (s.aluStep .inc k)

/-- ADD: `acc <- acc + zext_8(k)`; `pc <- pc + 1` (R92). -/
def execAdd (k : Operand) (s : State) : Host.Outcome State Fault Refusal := .next (s.aluStep .add k)

/-- DEC: `acc <- acc - 1`; `pc <- pc + 1` (R93). -/
def execDec (k : Operand) (s : State) : Host.Outcome State Fault Refusal := .next (s.aluStep .dec k)

end Sys2Proof.Machine
end

