-- ==== Sys2Proof/Machine/Control.lean ====
section
/-! DEFINITION. JMP and BNZ (spec 42_control_transfer.md): absolute direct targets, no link, no delay slot (R102, R104). -/

namespace Sys2Proof.Machine

/-- JMP: `pc <- a` (R100). -/
def execJmp (a : Operand) (s : State) : Host.Outcome State Fault Refusal :=
  .next (s.setPc (pcMux true (target a) s.pc))

/-- BNZ: `pc <- a` when `Z = 0`, else `pc <- pc + 1` (R101). -/
def execBnz (a : Operand) (s : State) : Host.Outcome State Fault Refusal :=
  .next (s.setPc (pcMux (!s.z) (target a) s.pc))

end Sys2Proof.Machine
end

