-- ==== Sys2Proof/Machine/LoadStore.lean ====
section
/-! DEFINITION. LOAD and STORE (spec 43_load_store.md): one addressing mode, one full word (R112). -/

namespace Sys2Proof.Machine

/-- LOAD: `acc <- mem[a]`; `pc <- pc + 1` (R110). -/
def execLoad (a : Operand) (s : State) : Host.Outcome State Fault Refusal :=
  .next (s.setAcc (s.memRead (dataAddress a))).advance

/-- STORE: `mem[a] <- acc`; `pc <- pc + 1` (R111). -/
def execStore (a : Operand) (s : State) : Host.Outcome State Fault Refusal :=
  .next (s.memWrite (dataAddress a) s.acc).advance

end Sys2Proof.Machine
end

