-- ==== Sys2Proof/Machine/Dispatch.lean ====
section
/-! DEFINITION. The effect of each instruction: one arm per constructor (spec R74). -/

namespace Sys2Proof.Machine

def exec (i : Instr) (s : State) : Host.Outcome State Fault Refusal :=
  match i with
  | .clear k => Sys2Proof.Machine.execClear k s
  | .inc k => Sys2Proof.Machine.execInc k s
  | .add k => Sys2Proof.Machine.execAdd k s
  | .dec k => Sys2Proof.Machine.execDec k s
  | .jmp a => Sys2Proof.Machine.execJmp a s
  | .bnz a => Sys2Proof.Machine.execBnz a s
  | .load a => Sys2Proof.Machine.execLoad a s
  | .store a => Sys2Proof.Machine.execStore a s

end Sys2Proof.Machine
end

