-- ==== Sys2Proof/Machine/Step.lean ====
section
/-! DEFINITION. One step of the machine (spec R74, R80), and the host's way to place the next instruction. -/

namespace Sys2Proof.Machine

/-- One step. When the run is on and no answer is awaited: fetch, decode, the instruction's effect, the event, the
count, and a look for the observer's answer. While an answer is awaited: one more look, and nothing else (R84).
When the run has ended: nothing changes until reset (R17, R131; log entry 4). -/
def step (s : State) : Host.Outcome State Fault Refusal :=
  match s.status with
  | .running =>
    if s.awaiting then .next s.takeReply
    else
      match exec s.decoded s with
      | .next t => .next (t.finish s.decoded)
      | .fault r => .fault r
      | .refused r => .refused r
  | .done => .next s
  | .aborted => .next s

/-- `s` with the one-word instruction `w` at the program counter, and a step enabled (log entry 2). An instruction
is one 8-bit word (R53): the bits of `w` above bit 7 are no part of it. This is how a test places a word, and no move
of the hardware's host (R88, log entry 18): neither `step` nor `State.hostMove` uses it. Right after a launch it is the
launch of the image with that word at address 0. -/
def State.withFetchWord (s : State) (_nbits w : Nat) : State :=
  { s.memWrite s.pc (BitVec.ofNat 8 w) with status := .running, awaiting := false }

end Sys2Proof.Machine
end

