-- ==== Sys2Proof/Machine/Datapath.lean ====
section
/-! DEFINITION. The six units as hardware: the decoder's control signals and what the units compute from them
(spec R71, R73; unit boundaries and signal names are the spec's decision D6, log entry 10). A second description of
a step's effect beside `exec`, which is the model; that the two agree is an obligation. -/

namespace Sys2Proof.Machine

/-- What the register file's input `acc_in` is connected to (R73). -/
inductive AccIn where
  /-- The ALU's output `y`. -/
  | y
  /-- The memory's output `rdata`. -/
  | rdata
  deriving DecidableEq, Repr

/-- The memory data access of a step (R73). -/
inductive MemAccess where
  | none | read | write
  deriving DecidableEq, Repr

/-- The decoder's control signals: one row of R73's table. -/
structure Control where
  aluOp  : AluOp
  accWe  : Bool
  accIn  : AccIn
  access : MemAccess
  take   : Bool
  deriving DecidableEq, Repr

/-- What the implementation puts on the signals that R73's table leaves at "any". -/
structure DontCare where
  aluOp : AluOp
  accIn : AccIn
  deriving DecidableEq, Repr

/-- R73's table: the control signals of an opcode, given `Z` and a choice for every "any". -/
def control (d : DontCare) (o : Opcode) (z : Bool) : Control :=
  match o with
  | .clear => ⟨.clr, true, .y, .none, false⟩
  | .inc   => ⟨.inc, true, .y, .none, false⟩
  | .add   => ⟨.add, true, .y, .none, false⟩
  | .dec   => ⟨.dec, true, .y, .none, false⟩
  | .jmp   => ⟨d.aluOp, false, d.accIn, .none, true⟩
  | .bnz   => ⟨d.aluOp, false, d.accIn, .none, !z⟩
  | .load  => ⟨d.aluOp, true, .rdata, .read, false⟩
  | .store => ⟨d.aluOp, false, d.accIn, .write, false⟩

/-- The register file's input multiplexer. -/
def accMux (sel : AccIn) (y rdata : Word) : Word :=
  match sel with
  | .y => y
  | .rdata => rdata

/-- The memory read/write unit's effect on memory: a write when `we` is set, else none (R71). -/
def memUnit (access : MemAccess) (m : Memory) (a : Addr) (wdata : Word) : Memory :=
  match access with
  | .write => m.write a wdata
  | .none | .read => m

/-- What the units leave in `acc`, `pc` and `mem` under given control signals and operand bits (R71). -/
def State.units (s : State) (c : Control) (k : Operand) : State :=
  { s with
    acc := if c.accWe then accMux c.accIn (alu c.aluOp s.acc k) (s.memRead (dataAddress k)) else s.acc
    pc  := pcMux c.take (target k) s.pc
    mem := memUnit c.access s.mem (dataAddress k) s.acc }

/-- The six units connected: the fetched word's opcode and `Z` give the control signals (R71, R73). -/
def State.datapath (s : State) (d : DontCare) : State :=
  s.units (control d (opcodeOf s.fetch) s.z) (operandOf s.fetch)

end Sys2Proof.Machine
end

