-- ==== Sys2Proof/Machine/Loader.lean ====
section
/-! DEFINITION. From program text to the memory image (spec R60 to R65). The assembler is outside the core (R4):
no other definition uses this file, and the core takes any image. Operand tokens are read strictly, by the spec's
decision D12 (log entry 13). -/

namespace Sys2Proof.Machine

/-- The whitespace-separated tokens of a text, `cur` the characters of an open token, last first (R60). -/
def tokensFrom : List Char → List Char → List (List Char)
  | [], cur => if cur.isEmpty then [] else [cur.reverse]
  | c :: cs, cur =>
    if c.isWhitespace then
      if cur.isEmpty then tokensFrom cs [] else cur.reverse :: tokensFrom cs []
    else tokensFrom cs (c :: cur)

/-- The tokens of a program text (R60). -/
def tokens (text : List Char) : List (List Char) := tokensFrom text []

/-- The mnemonic resolver, exact and case-sensitive; every other token, the empty one too, is CLEAR (R61). -/
def resolve (tok : List Char) : Opcode :=
  if tok = ['I', 'N', 'C', '1'] ∨ tok = ['I', 'N', 'C'] then .inc
  else if tok = ['A', 'D', 'D'] then .add
  else if tok = ['D', 'E', 'C', '1'] ∨ tok = ['D', 'E', 'C'] then .dec
  else if tok = ['J', 'M', 'P'] then .jmp
  else if tok = ['B', 'U', 'Z'] ∨ tok = ['B', 'N', 'Z'] ∨ tok = ['B', 'Z', 'C'] ∨ tok = ['B', 'N', 'E'] then .bnz
  else if tok = ['L', 'O', 'A', 'D'] then .load
  else if tok = ['S', 'T', 'O', 'R', 'E'] then .store
  else .clear

/-- The number a string of decimal digits writes, `acc` the number of the digits before it. -/
def decimalFrom : List Char → Nat → Option Nat
  | [], acc => some acc
  | c :: cs, acc =>
    if '0' ≤ c ∧ c ≤ '9' then decimalFrom cs (10 * acc + (c.toNat - '0'.toNat)) else none

/-- An operand token: a decimal integer in 0 to 31, anything else is rejected (R63, D12). -/
def parseOperand (tok : List Char) : Option Operand :=
  if tok.isEmpty then none
  else
    match decimalFrom tok 0 with
    | some n => if n < 32 then some (BitVec.ofNat 5 n) else none
    | none => none

/-- The words of at most `n` instructions, in the order they appear (R60, R62). `none`: the text is rejected (R63). -/
def assembleTokens : Nat → List (List Char) → Option (List Word)
  | 0, _ => some []
  | _ + 1, [] => some []
  | n + 1, tok :: rest =>
    if operandRequired (resolve tok) then
      match rest with
      | [] => none
      | k :: rest' =>
        match parseOperand k with
        | none => none
        | some v => (assembleTokens n rest').map (encodeFields (resolve tok) v :: ·)
    else (assembleTokens n rest).map (encodeFields (resolve tok) 0 :: ·)

/-- The image that begins with the given words; every later word is `0x00` (R60). -/
def Image.ofWords (ws : List Word) : Image := Vector.ofFn (fun a : Fin 32 => ws.getD a.val 0)

/-- The image of a program text: at most 32 instructions, extra tokens ignored (R60). -/
def assemble (text : List Char) : Option Image := (assembleTokens Config.memWords (tokens text)).map Image.ofWords

end Sys2Proof.Machine
end

