-- ==== Sys2Proof/Machine/HostMoves.lean ====
section
/-! DEFINITION. Everything the host can do to the core (spec R88): launch a run and answer an event. The host has no
other move, which is an assumption about it (log entry 18): it writes no field of the core, injects no instruction,
skips and repeats no step, and resumes no ended run. Of R88's other two interactions, the event is the core's output
(`State.trace`), and the end of a run asks nothing of the host. -/

namespace Sys2Proof.Machine

/-- A move of the host (R88). -/
inductive HostMove where
  /-- Launch: reset with an image it has built (R88, R140). -/
  | launch (img : Image)
  /-- One more answer to come, or with `none` one more look at which none is there yet (R83, R84). -/
  | answer (r : Option Reply)
  deriving DecidableEq, Repr

/-- What a move does: a launch discards all of the run before it; an answer is put after the answers already to come
and touches nothing else (R84, R88). -/
def State.hostMove (s : State) : HostMove → State
  | .launch img => s.applyReset img []
  | .answer r => { s with replies := s.replies ++ [r] }

end Sys2Proof.Machine
end

