-- ==== Sys2Proof/Safety.lean ====
section
/-! DEFINITION. What holds of every state of a run, in the terms the statements use. -/

namespace Sys2Proof.Machine

/-- The run control is consistent (spec R16, R17, R80): at most 32 steps; `done` means 32; a step is enabled only
below 32; an answer is awaited only after a step of a run that is on. -/
structure State.RunConsistent (s : State) : Prop where
  atMostBudget : s.steps ≤ Config.stepBudget
  doneAtBudget : s.status = .done → s.steps = Config.stepBudget
  enabledBelow : s.status = .running → s.awaiting = false → s.steps < Config.stepBudget
  awaitingRuns : s.awaiting = true → s.status = .running ∧ 0 < s.steps
  abortedAfter : s.status = .aborted → 0 < s.steps

/-- The trace is that of the run so far (R81, R82): one event a step, numbered from 0, each with a copy of a memory
in canonical form, the last with the present accumulator, program counter and memory. -/
structure State.TraceConsistent (s : State) : Prop where
  onePerStep : s.trace.length = s.steps
  numbered   : s.trace.map (fun e => e.index.toNat) = List.range s.trace.length
  snapshots  : ∀ e ∈ s.trace, e.mem.wf
  lastIsNow  : ∀ e, s.trace.getLast? = some e → e.acc = s.acc ∧ e.pc = s.pc ∧ e.mem = s.mem

/-- The invariant of a run: memory canonical, run control and trace consistent. -/
structure State.Inv (s : State) : Prop where
  memory : s.mem.wf
  run    : s.RunConsistent
  trace  : s.TraceConsistent

/-- Event `e'` is the one that follows event `e`: it reports the instruction that stands in `e`'s memory at `e`'s
program counter, and what that instruction makes of `e`'s accumulator, program counter and memory (R74, R82). -/
def StepEvent.Follows (e e' : StepEvent) : Prop :=
  e'.index = e.index + 1 ∧
  e'.opcode = opcodeOf (e.mem.read e.pc) ∧ e'.operand = operandOf (e.mem.read e.pc) ∧
  ∃ t, exec (decode (e.mem.read e.pc)) { State.reset with acc := e.acc, pc := e.pc, mem := e.mem } = .next t ∧
    e'.acc = t.acc ∧ e'.pc = t.pc ∧ e'.mem = t.mem

/-- Every event of the trace follows the one before it. -/
def State.TraceReplays (s : State) : Prop := s.trace.IsChain StepEvent.Follows

/-- What the trace says address `a` holds: the accumulator of the latest STORE to it, else `w` (R33, R41). -/
def latestStore (trace : List StepEvent) (a : Addr) (w : Word) : Word :=
  trace.foldl (fun v e => if e.opcode = .store ∧ e.operand = a then e.acc else v) w

/-- The trace explains the memory: every word is that of the latest STORE of the run, else the image's (R33). -/
def State.TraceExplains (img : Image) (s : State) : Prop :=
  ∀ a : Addr, s.mem.read a = latestStore s.trace a img[a.toNat]

/-- `n` steps, stopping at the first fault or refusal: the host's `Core.run` of this machine (`core_run`), over the
model's own names. -/
def run : Nat → State → Host.Outcome State Fault Refusal
  | 0, s => .next s
  | n + 1, s =>
    match step s with
    | .next t => run n t
    | .fault r => .fault r
    | .refused r => .refused r

/-- A run of `n` steps from `s` stops neither with a fault nor with a refusal. -/
def State.SafeRun (s : State) (n : Nat) : Prop := ∃ t, run n s = .next t

/-- What can happen next, seen from outside: the core steps, or the host makes a move (R70, R88). -/
inductive Action where
  | core
  | host (m : HostMove)
  deriving DecidableEq, Repr

/-- A sequence of steps of the core and moves of the host, stopping at the first fault or refusal (R88). -/
def session : List Action → State → Host.Outcome State Fault Refusal
  | [], s => .next s
  | .core :: rest, s =>
    match step s with
    | .next t => session rest t
    | .fault r => .fault r
    | .refused r => .refused r
  | .host m :: rest, s => session rest (s.hostMove m)

end Sys2Proof.Machine
end

