-- ==== Sys2Proof/Certificates/Slice0/Obligations.lean ====
section
/-! DEFINITION. The statements for the provers. Where a statement lets the program counter advance, its value after
address 31 is the spec's decision D1 (R13, log entry 1). The run status names and the place of the abort are its
decision D7 (log entry 9). `awaiting`, `replies` and `trace` are the model's own fields (log entries 5, 6, 7).
`run n` is `n` steps, the host's `Core.run` of this machine (`core_run` in Laws/Run.lean). -/

open Sys2Proof Sys2Proof.Machine

/-! ### Encoding -/

/-- R51: the decoder splits a word into its top 3 bits and its bottom 5 bits. -/
def Obligations.DecoderSplitsEveryWord : Prop :=
  ∀ w : Word, (decode w).opcode.bits.toNat = w.toNat / 32 ∧ (decode w).operand.toNat = w.toNat % 32 ∧
    (decode w).opcode.bits = (w >>> 5).setWidth 3 ∧ (decode w).operand = (w &&& 0x1F#8).setWidth 5 ∧
    (decode 0x45#8).opcode.bits = 2 ∧ (decode 0x45#8).operand = 5

/-- R54: each opcode owns the 32 consecutive words from `opcode * 32` on, in the order of the enumeration. -/
def Obligations.OpcodesOwnTheirWords : Prop :=
  ∀ k : Operand,
    decode (BitVec.ofNat 8 (0 * 32 + k.toNat)) = .clear k ∧ decode (BitVec.ofNat 8 (1 * 32 + k.toNat)) = .inc k ∧
    decode (BitVec.ofNat 8 (2 * 32 + k.toNat)) = .add k ∧ decode (BitVec.ofNat 8 (3 * 32 + k.toNat)) = .dec k ∧
    decode (BitVec.ofNat 8 (4 * 32 + k.toNat)) = .jmp k ∧ decode (BitVec.ofNat 8 (5 * 32 + k.toNat)) = .bnz k ∧
    decode (BitVec.ofNat 8 (6 * 32 + k.toNat)) = .load k ∧ decode (BitVec.ofNat 8 (7 * 32 + k.toNat)) = .store k

/-- R52: encoding is `opcode * 32 + operand`, and encoding and decoding are inverse to each other in both
directions, so every instruction has exactly one word and every word stands for exactly one instruction. -/
def Obligations.EncodeAndDecodeAreInverse : Prop :=
  (∀ i : Instr, i.wf = true → decode (encode i) = i ∧
    (encode i).toNat = i.opcode.bits.toNat * 32 + i.operand.toNat) ∧
  (∀ w : Word, encode (decode w) = w) ∧
  (∀ (o : Opcode) (k : Operand), opcodeOf (encodeFields o k) = o ∧ operandOf (encodeFields o k) = k)

/-- R56: for CLEAR, INC and DEC all 32 words execute identically. The decoder still delivers the operand bits and
the step event still carries them. -/
def Obligations.IgnoredOperandBitsHaveNoEffect : Prop :=
  (∀ (j k : Operand) (s : State), exec (.clear j) s = exec (.clear k) s ∧ exec (.inc j) s = exec (.inc k) s ∧
    exec (.dec j) s = exec (.dec k) s) ∧
  (∀ w : Word, (w.toNat ≤ 0x1F → decode w = .clear (operandOf w)) ∧
    (0x20 ≤ w.toNat → w.toNat ≤ 0x3F → decode w = .inc (operandOf w)) ∧
    (0x60 ≤ w.toNat → w.toNat ≤ 0x7F → decode w = .dec (operandOf w))) ∧
  (∀ (s : State) (i : Instr), (s.event i).operand = i.operand)

/-- Words written out bit by bit from the spec's table decode to the instructions they stand for
(95_test_vectors.md V1). -/
def Obligations.WordsFromTheTableDecode : Prop :=
  decode 0b00011111#8 = .clear 31 ∧ decode 0b00100000#8 = .inc 0 ∧ decode 0b01000101#8 = .add 5 ∧
  decode 0b01111111#8 = .dec 31 ∧ decode 0b10000101#8 = .jmp 5 ∧ decode 0b10101100#8 = .bnz 12 ∧
  decode 0b11001010#8 = .load 10 ∧ decode 0b11101010#8 = .store 10

/-! ### The result of each instruction: every one completes in every state -/

/-- CLEAR completes in every state: the accumulator is 0, `Z` is 1, the program counter advances (modulo 32 by the
spec's decision D1), nothing else changes. -/
def Obligations.ClearZeroesTheAccumulator : Prop :=
  ∀ (k : Operand) (s : State), exec (.clear k) s = .next { s with acc := 0, pc := s.pc + 1 } ∧
    ({ s with acc := 0, pc := s.pc + 1 } : State).z = true

/-- INC completes in every state: the accumulator grows by one modulo 256, `Z` becomes 1 exactly when it was `0xFF`,
the program counter advances (modulo 32 by the spec's decision D1), nothing else changes. -/
def Obligations.IncAddsOne : Prop :=
  ∀ (k : Operand) (s : State), ∃ t, exec (.inc k) s = .next t ∧ t = { s with acc := t.acc, pc := t.pc } ∧
    t.acc.toNat = (s.acc.toNat + 1) % 256 ∧ t.pc.toNat = (s.pc.toNat + 1) % 32 ∧ (t.z = true ↔ s.acc = 0xFF)

/-- ADD completes in every state: the unsigned operand is added modulo 256 and no memory is read, `Z` becomes 1
exactly when the sum is 0 modulo 256, the program counter advances (modulo 32 by the spec's decision D1), nothing
else changes. -/
def Obligations.AddAddsTheImmediate : Prop :=
  ∀ (k : Operand) (s : State), ∃ t, exec (.add k) s = .next t ∧ t = { s with acc := t.acc, pc := t.pc } ∧
    t.acc.toNat = (s.acc.toNat + k.toNat) % 256 ∧ t.pc.toNat = (s.pc.toNat + 1) % 32 ∧
    (t.z = true ↔ (s.acc.toNat + k.toNat) % 256 = 0)

/-- DEC completes in every state: the accumulator shrinks by one modulo 256, `Z` becomes 1 exactly when it was
`0x01`, the program counter advances (modulo 32 by the spec's decision D1), nothing else changes. -/
def Obligations.DecSubtractsOne : Prop :=
  ∀ (k : Operand) (s : State), ∃ t, exec (.dec k) s = .next t ∧ t = { s with acc := t.acc, pc := t.pc } ∧
    t.acc.toNat = (s.acc.toNat + 255) % 256 ∧ t.pc.toNat = (s.pc.toNat + 1) % 32 ∧ (t.z = true ↔ s.acc = 0x01)

/-- R100: JMP completes in every state and changes the program counter only, to its operand. Its words are `0x80` to
`0x9F` and its assembler token is `JMP`. A jump to itself changes nothing, a jump to the next address below 31 is
a no-operation, and a step that jumps counts as one step. -/
def Obligations.JmpSetsTheProgramCounter : Prop :=
  (∀ (a : Operand) (s : State), exec (.jmp a) s = .next { s with pc := a } ∧ ({ s with pc := a } : State).z = s.z) ∧
  (∀ a : Operand, decode (BitVec.ofNat 8 (0x80 + a.toNat)) = .jmp a) ∧ resolve ['J', 'M', 'P'] = .jmp ∧
  (∀ s : State, exec (.jmp s.pc) s = .next s) ∧
  (∀ (a : Operand) (s : State), s.pc.toNat < 31 → a.toNat = s.pc.toNat + 1 →
    exec (.jmp a) s = .next { s with pc := s.pc + 1 } ∧ exec (.jmp a) s = exec (.add 0) s) ∧
  (∀ (a : Operand) (s t : State), s.status = .running → s.awaiting = false → decode (s.mem.read s.pc) = .jmp a →
    step s = .next t → t.pc = a ∧ t.acc = s.acc ∧ t.mem = s.mem ∧ t.steps = s.steps + 1)

/-- BNZ completes in every state and changes the program counter only: to its operand when any of the eight bits of
the accumulator is set, else to the next address (modulo 32 by the spec's decision D1). -/
def Obligations.BnzBranchesOnNonzero : Prop :=
  ∀ (a : Operand) (s : State), exec (.bnz a) s = .next { s with pc := if s.acc = 0 then s.pc + 1 else a } ∧
    (s.z = true → exec (.bnz a) s = .next { s with pc := s.pc + 1 }) ∧
    (s.z = false → exec (.bnz a) s = .next { s with pc := a })

/-- LOAD completes in every state: the accumulator is the word at the operand address, `Z` is 1 exactly when that
word is `0x00`, the program counter advances (modulo 32 by the spec's decision D1), nothing else changes. -/
def Obligations.LoadCopiesTheWord : Prop :=
  ∀ (a : Operand) (s : State), exec (.load a) s = .next { s with acc := s.mem.read a, pc := s.pc + 1 } ∧
    (({ s with acc := s.mem.read a, pc := s.pc + 1 } : State).z = true ↔ s.mem.read a = 0x00)

/-- STORE completes in every state: the word at the operand address is the accumulator, every other word stays, the
program counter advances (modulo 32 by the spec's decision D1), nothing else changes. -/
def Obligations.StoreCopiesTheAccumulator : Prop :=
  ∀ (a : Operand) (s : State), ∃ t, exec (.store a) s = .next t ∧ t = { s with mem := t.mem, pc := s.pc + 1 } ∧
    t.z = s.z ∧ ∀ b : Addr, t.mem.read b = if b = a then s.acc else s.mem.read b

/-! ### Frames -/

/-- CLEAR, INC, ADD, DEC and LOAD store nothing: every byte of memory reads as before, and only the accumulator
(with it `Z`) and the program counter may change. -/
def Obligations.AccumulatorInstructionsFrame : Prop :=
  ∀ (k : Operand) (i : Instr) (s t : State), i ∈ [Instr.clear k, .inc k, .add k, .dec k, .load k] →
    exec i s = .next t →
    (∀ a : Addr, t.mem.read a = s.mem.read a) ∧ t.mem = s.mem ∧ t.steps = s.steps ∧ t.status = s.status ∧
    t.awaiting = s.awaiting ∧ t.replies = s.replies ∧ t.trace = s.trace

/-- JMP and BNZ store nothing and leave the accumulator and `Z`: only the program counter may change. -/
def Obligations.ControlTransferFrame : Prop :=
  ∀ (a : Operand) (i : Instr) (s t : State), i ∈ [Instr.jmp a, .bnz a] → exec i s = .next t →
    (∀ b : Addr, t.mem.read b = s.mem.read b) ∧ t.mem = s.mem ∧ t.acc = s.acc ∧ t.z = s.z ∧ t.steps = s.steps ∧
    t.status = s.status ∧ t.awaiting = s.awaiting ∧ t.replies = s.replies ∧ t.trace = s.trace

/-- STORE changes one word, that at the address its operand gives: for every address `d`, if the operand gives `d`,
every address but `d` reads as before. The accumulator and `Z` stay. -/
def Obligations.StoreFrame : Prop :=
  ∀ (a : Operand) (s t : State), exec (.store a) s = .next t →
    (∀ d : Addr, dataAddress a = d → ∀ b : Addr, b ≠ d → t.mem.read b = s.mem.read b) ∧ t.acc = s.acc ∧
    t.z = s.z ∧ t.steps = s.steps ∧ t.status = s.status ∧ t.awaiting = s.awaiting ∧ t.replies = s.replies ∧
    t.trace = s.trace

/-! ### Flags and arithmetic -/

/-- R14: `Z` is a function of the accumulator, 1 for `0x00` and 0 for each other value, the NOR of its bits. STORE,
JMP and BNZ leave it unchanged, the other five change it only by changing the accumulator, BNZ branches when it
is 0, and it is 1 at reset. -/
def Obligations.ZeroFlagIsAFunctionOfTheAccumulator : Prop :=
  (∀ s : State, (s.z = true ↔ s.acc = 0x00) ∧ s.z = !(s.acc.getLsbD 0 || s.acc.getLsbD 1 || s.acc.getLsbD 2 ||
    s.acc.getLsbD 3 || s.acc.getLsbD 4 || s.acc.getLsbD 5 || s.acc.getLsbD 6 || s.acc.getLsbD 7)) ∧
  (∀ s t : State, s.acc = t.acc → s.z = t.z) ∧
  (∀ (a : Operand) (i : Instr) (s t : State), i ∈ [Instr.store a, .jmp a, .bnz a] → exec i s = .next t →
    t.acc = s.acc ∧ t.z = s.z) ∧
  (∀ (k : Operand) (i : Instr) (s t : State), i ∈ [Instr.clear k, .inc k, .add k, .dec k, .load k] →
    exec i s = .next t → t.z = zeroFlag t.acc) ∧
  (∀ (a : Operand) (s : State), s.z = false → exec (.bnz a) s = .next { s with pc := a }) ∧ State.reset.z = true

/-- R94: every ALU operation is the true integer result reduced modulo 256, used by CLEAR, INC, ADD and DEC as the
table says. Nothing records an overflow: but for the program counter the accumulator is all that changes. -/
def Obligations.ArithmeticWrapsSilently : Prop :=
  (∀ (a : Word) (b : Operand), (alu .clr a b : Word) = 0x00 ∧
    ((alu .inc a b).toNat : Int) = ((a.toNat : Int) + 1) % 256 ∧
    ((alu .add a b).toNat : Int) = ((a.toNat : Int) + b.toNat) % 256 ∧
    ((alu .dec a b).toNat : Int) = ((a.toNat : Int) - 1) % 256) ∧
  (∀ (k : Operand) (s : State) (i : Instr) (op : AluOp),
    (i, op) ∈ [(Instr.clear k, AluOp.clr), (.inc k, .inc), (.add k, .add), (.dec k, .dec)] →
    ∃ t, exec i s = .next t ∧ t = { s with acc := alu op s.acc k, pc := t.pc })

/-- R96: the identities of the arithmetic, for every accumulator and all operands. 256 INCs or DECs restore it, and
after CLEAR any sequence of ALU operations gives a value that does not depend on what CLEAR found. -/
def Obligations.ArithmeticIdentities : Prop :=
  (∀ (a : Word) (j k : Operand), alu .dec (alu .inc a j) k = a ∧ alu .inc (alu .dec a j) k = a ∧
    (alu .add (alu .add a j) k).toNat = (a.toNat + j.toNat + k.toNat) % 256 ∧
    alu .add (alu .add a j) k = alu .add (alu .add a k) j ∧ alu .add (alu .inc a k) j = alu .inc (alu .add a j) k ∧
    alu .add (alu .dec a k) j = alu .dec (alu .add a j) k ∧ alu .add a 1 = alu .inc a k ∧
    (∀ m : Operand, ∃ a' : Word, alu .add a' m ≠ alu .dec a' k) ∧ (alu .add (alu .clr a j) k).toNat = k.toNat) ∧
  (∀ (a : Word) (k : Operand), (fun x => alu .inc x k)^[256] a = a ∧ (fun x => alu .dec x k)^[256] a = a) ∧
  (∀ (a b : Word) (k : Operand) (ops : List (AluOp × Operand)),
    ops.foldl (fun x p => alu p.1 x p.2) (alu .clr a k) = ops.foldl (fun x p => alu p.1 x p.2) (alu .clr b k))

/-! ### Addressing and control -/

/-- R112: the only addressing mode is absolute direct. LOAD reads and STORE writes the one full word at the operand,
whatever the rest of the state. LOAD and STORE are the only instructions that access memory as data: the other six
have the same effect on the accumulator and the program counter whatever memory holds, and leave it alone. -/
def Obligations.OneAddressingMode : Prop :=
  (∀ (a : Operand) (s : State), ∃ t, exec (.load a) s = .next t ∧ t.acc = s.mem.read a ∧ t.mem = s.mem) ∧
  (∀ (a : Operand) (s : State), ∃ t, exec (.store a) s = .next t ∧ t.mem.read a = s.acc ∧
    ∀ b : Addr, b ≠ a → t.mem.read b = s.mem.read b) ∧
  (∀ (k : Operand) (i : Instr) (s : State) (m : Memory),
    i ∈ [Instr.clear k, .inc k, .add k, .dec k, .jmp k, .bnz k] →
    ∃ t u, exec i s = .next t ∧ exec i { s with mem := m } = .next u ∧ u = { t with mem := m } ∧ t.mem = s.mem)

/-- R102: a target is the 5-bit operand itself, whatever the program counter, the accumulator (but for its being
zero) and memory are, and is a memory address. Every word can be reached by a jump from every other. There is no
delay slot: after a taken jump or branch the next instruction executed is the one at the target. -/
def Obligations.TargetsAreAbsoluteAndImmediate : Prop :=
  (∀ (a : Operand) (s : State), a.toNat < 32 ∧ ∃ t, exec (.jmp a) s = .next t ∧ t.pc = a) ∧
  (∀ (a : Operand) (s : State), s.acc ≠ 0 → ∃ t, exec (.bnz a) s = .next t ∧ t.pc = a) ∧
  (∀ (a : Operand) (s t : State), s.status = .running → s.awaiting = false →
    decode (s.mem.read s.pc) = .jmp a ∨ (decode (s.mem.read s.pc) = .bnz a ∧ s.acc ≠ 0) → step s = .next t →
    t.pc = a ∧ t.decoded = decode (s.mem.read a))

/-- R75: a step that executes an instruction leaves one of exactly two values in the program counter, the sequential
address (modulo 32 by the spec's decision D1) or the operand, the operand exactly for JMP and for BNZ with a
nonzero accumulator. -/
def Obligations.ProgramCounterSelection : Prop :=
  ∀ s t : State, s.status = .running → s.awaiting = false → step s = .next t →
    t.pc = if (decode (s.mem.read s.pc)).opcode = .jmp ∨
        ((decode (s.mem.read s.pc)).opcode = .bnz ∧ s.acc ≠ 0) then operandOf (s.mem.read s.pc) else s.pc + 1

/-! ### Memory -/

/-- R34: a step that executes a STORE sets the word at its operand to the accumulator and leaves the 31 others, for
every address, every value and every state in which a step is enabled, the STORE's own address too. -/
def Obligations.StoreStepWritesExactlyOneWord : Prop :=
  ∀ (a : Operand) (s : State), s.status = .running → s.awaiting = false → decode (s.mem.read s.pc) = .store a →
    ∃ t, step s = .next t ∧ ∀ b : Addr, t.mem.read b = if b = a then s.acc else s.mem.read b

/-- R33: a read returns the word of the latest STORE of this run, or the image's word, in every state of every run
with any image and any answers. LOAD delivers it, changes no memory, and the same LOAD again delivers the same. -/
def Obligations.ReadReturnsTheLatestStore : Prop :=
  (∀ (img : Image) (rs : List (Option Reply)) (n : Nat) (t : State) (a : Addr),
    run n (State.launch img rs) = .next t → t.mem.read a = latestStore t.trace a img[a.toNat]) ∧
  (∀ (a : Operand) (s : State), ∃ t u, exec (.load a) s = .next t ∧ t.acc = s.mem.read a ∧ t.mem = s.mem ∧
    exec (.load a) t = .next u ∧ u.acc = t.acc)

/-- Every step keeps it: the trace explains what every memory word holds (R33, R41; the trace is the model's own
field, log entry 7). -/
def Obligations.EveryStepKeepsTraceExplainsMemory : Prop :=
  ∀ (img : Image) (s t : State), s.TraceExplains img → step s = .next t → t.TraceExplains img

/-- A LOAD after a STORE gives the value stored, or what stood there before if the addresses differ
(R110, R111; 95_test_vectors.md S6). -/
def Obligations.StoreThenLoad : Prop :=
  ∀ (a b : Operand) (s : State), ∃ t u, exec (.store a) s = .next t ∧ exec (.load b) t = .next u ∧
    u.acc = (if b = a then s.acc else s.mem.read b) ∧ u.mem = t.mem

/-- R44 and R113: the fetch of the next step sees the store of this one. STORE to the address the program counter
goes on to (modulo 32 by the spec's decision D1) makes the accumulator the next instruction. STORE to its own
address still executes as a STORE and leaves the accumulator there. -/
def Obligations.NextFetchSeesTheStore : Prop :=
  ∀ (a : Operand) (s t : State), s.status = .running → s.awaiting = false → decode (s.mem.read s.pc) = .store a →
    step s = .next t →
    t.decoded = (if a = s.pc + 1 then decode s.acc else decode (s.mem.read (s.pc + 1))) ∧
    (a = s.pc → t.mem.read s.pc = s.acc ∧ t.pc = s.pc + 1 ∧ t.acc = s.acc)

/-- Two memories in canonical form that read the same at every address are the same list (the model's own form of
memory, log entry 2). -/
def Obligations.CanonicalMemoriesAreDeterminedByTheirReads : Prop :=
  ∀ m m' : Memory, m.wf → m'.wf → (∀ a : Addr, m.read a = m'.read a) → m = m'

/-! ### The step -/

/-- When a step is enabled and the word at the program counter decodes to `i`, the step is `exec i`, then the event
and the count of the step, then a look for the observer's answer. -/
def Obligations.StepRunsTheDecodedInstruction : Prop :=
  ∀ (i : Instr) (s t : State), s.status = .running → s.awaiting = false → decode (s.mem.read s.pc) = i →
    exec i s = .next t →
    step s = .next ({ t with
      trace := s.trace ++ [{ index := BitVec.ofNat 5 s.steps, opcode := i.opcode, operand := i.operand,
                             acc := t.acc, pc := t.pc, mem := t.mem }]
      steps := s.steps + 1 } : State).takeReply

/-- R74: every step that executes an instruction writes the step count, writes the accumulator only for CLEAR, INC,
ADD, DEC and LOAD, and memory only for STORE. -/
def Obligations.OnlyTheNamedOpcodesWrite : Prop :=
  ∀ s t : State, s.status = .running → s.awaiting = false → step s = .next t →
    t.steps = s.steps + 1 ∧
    ((decode (s.mem.read s.pc)).opcode ∉ [Opcode.clear, .inc, .add, .dec, .load] → t.acc = s.acc ∧ t.z = s.z) ∧
    ((decode (s.mem.read s.pc)).opcode ≠ .store → t.mem = s.mem) ∧
    (∀ a : Addr, t.mem.read a ≠ s.mem.read a → a = operandOf (s.mem.read s.pc))

/-- R16: `steps` is 0 at reset, grows by exactly 1 with every step that executes an instruction, whatever the
instruction, never decreases, and is the index of that step's event. No instruction reads or writes it: what an
instruction makes of the rest of the state is the same whatever the count. -/
def Obligations.StepCounterCountsEveryStep : Prop :=
  State.reset.steps = 0 ∧
  (∀ s t : State, s.status = .running → s.awaiting = false → step s = .next t → t.steps = s.steps + 1 ∧
    ∃ e, t.trace = s.trace ++ [e] ∧ e.index = BitVec.ofNat 5 s.steps) ∧
  (∀ s t : State, step s = .next t → s.steps ≤ t.steps) ∧
  (∀ (i : Instr) (s : State) (n : Nat), ∃ t, exec i s = .next t ∧ t.steps = s.steps ∧
    exec i { s with steps := n } = .next { t with steps := n })

/-- The one event of a step that executes an instruction: the index, the opcode and operand of the word fetched, and
the accumulator, the program counter and all of memory after the step (R82, the fields by the spec's decision D9). -/
def Obligations.OneEventAfterEachStep : Prop :=
  ∀ s t : State, s.status = .running → s.awaiting = false → step s = .next t →
    ∃ e, t.trace = s.trace ++ [e] ∧ e.index = BitVec.ofNat 5 s.steps ∧ e.opcode = opcodeOf (s.mem.read s.pc) ∧
      e.operand = operandOf (s.mem.read s.pc) ∧ e.acc = t.acc ∧ e.pc = t.pc ∧ e.mem = t.mem

/-- The six units, connected by the control signals of R73's table, compute the effect of the fetched instruction,
whatever an implementation puts on the signals the table leaves at "any" (the spec's decision D6). -/
def Obligations.DatapathComputesTheEffect : Prop :=
  ∀ (d : DontCare) (s : State), exec (decode (s.mem.read s.pc)) s = .next (s.datapath d)

/-- R120: the core raises no exception, ever. From every state and for any number of steps, the machine stops
neither with a fault nor with a refusal, and every instruction completes in every state. -/
def Obligations.NothingEverFaults : Prop :=
  (∀ (s : State) (n : Nat), s.SafeRun n) ∧ (∀ (i : Instr) (s : State), ∃ t, exec i s = .next t)

/-! ### Reset -/

/-- R20 with decisions D2, D3 and D4: the state a launch gives, for every image, every answer to come and every state
before it: nothing survives. -/
def Obligations.LaunchStartsAFreshRun : Prop :=
  ∀ (img : Image) (rs : List (Option Reply)) (s : State),
    (s.applyReset img rs).acc = 0x00 ∧ (s.applyReset img rs).z = true ∧ (s.applyReset img rs).pc = 0 ∧
    (∀ a : Addr, (s.applyReset img rs).mem.read a = img[a.toNat]) ∧ (s.applyReset img rs).steps = 0 ∧
    (s.applyReset img rs).status = .running ∧ (s.applyReset img rs).trace = [] ∧
    (∀ s' : State, s'.applyReset img rs = s.applyReset img rs)

/-- R141, by decision D2: the first step after reset executes the image's word 0. -/
def Obligations.FirstStepExecutesWordZero : Prop :=
  ∀ (img : Image) (rs : List (Option Reply)), ∃ t u, exec (decode img[0]) (State.launch img rs) = .next t ∧
    step (State.launch img rs) = .next u ∧ u.acc = t.acc ∧ u.pc = t.pc ∧ u.mem = t.mem ∧ u.steps = 1

/-- The invariant holds right after reset, with the empty image and with any other. -/
def Obligations.InvariantHoldsAtReset : Prop :=
  State.reset.Inv ∧ ∀ (img : Image) (rs : List (Option Reply)), (State.launch img rs).Inv

/-- The word the host places is the next instruction: whatever the state, a step is enabled and decodes it, and from
reset the step runs it as the first instruction of a run (the host's placing of a word, log entry 2). -/
def Obligations.PlacedWordIsTheNextInstruction : Prop :=
  ∀ (s : State) (w : Nat), w < 256 →
    (s.withFetchWord 8 w).status = .running ∧ (s.withFetchWord 8 w).awaiting = false ∧
    (s.withFetchWord 8 w).pc = s.pc ∧ (s.withFetchWord 8 w).acc = s.acc ∧
    decodeTableWord 8 w = some (s.withFetchWord 8 w).decoded ∧
    (∃ t u, exec (decode (BitVec.ofNat 8 w)) (State.reset.withFetchWord 8 w) = .next t ∧
      step (State.reset.withFetchWord 8 w) = .next u ∧ u.acc = t.acc ∧ u.pc = t.pc ∧ u.mem = t.mem ∧ u.steps = 1)

/-! ### The run -/

/-- From every state with the invariant, a step gives a state with the invariant: memory canonical, the step count
within the budget and in agreement with the run status, the trace one numbered event a step, the last one the
present state (the trace is the model's own field, log entry 7). -/
def Obligations.EveryStepKeepsTheInvariant : Prop :=
  ∀ s t : State, s.Inv → step s = .next t → t.Inv

/-- From every state with the invariant whose trace replays, a step gives one whose trace replays: each event is what
the instruction in the memory of the event before it makes of that event's state, so the trace and the image say
all there is to know of a run (R82, R85; the trace is the model's own field, log entry 7). -/
def Obligations.EveryStepKeepsTheTraceReplaying : Prop :=
  ∀ s t : State, s.Inv → s.TraceReplays → step s = .next t → t.TraceReplays

/-- R80 and R81: a run whose observer answers without delay executes exactly 32 steps and ends as `done` when none of
the first 32 answers is an abort, and ends as `aborted` after step `n + 1` when answer `n`, below 32, is the first
abort. It has one event a step, and further steps change nothing (answers by the model's convention, log entry 5). -/
def Obligations.RunEndsAtBudgetOrFirstAbort : Prop :=
  ∀ (img : Image) (rs : List Reply),
    (Reply.abort ∉ rs.take 32 → ∃ t, run 32 (State.launch img (rs.map some)) = .next t ∧
      t.status = .done ∧ t.steps = 32 ∧ t.trace.length = 32 ∧
      (∀ n < 32, ∀ u, run n (State.launch img (rs.map some)) = .next u → u.status = .running) ∧
      ∀ m, run (32 + m) (State.launch img (rs.map some)) = .next t) ∧
    (∀ n < 32, rs[n]? = some .abort → Reply.abort ∉ rs.take n →
      ∃ t, run (n + 1) (State.launch img (rs.map some)) = .next t ∧
        t.status = .aborted ∧ t.steps = n + 1 ∧ t.trace.length = n + 1 ∧
        ∀ m, run (n + 1 + m) (State.launch img (rs.map some)) = .next t)

/-- From every state with the invariant in which a step is enabled, with an observer that always continues, exactly
the steps left in the budget are executed, and the run is then done (R80, log entry 5). -/
def Obligations.RunUsesUpTheBudget : Prop :=
  ∀ s : State, s.Inv → s.status = .running → s.awaiting = false → s.replies = [] →
    ∃ t, run (32 - s.steps) s = .next t ∧ t.status = .done ∧ t.steps = 32

/-- R103: a jump to itself holds the machine, every iteration costs a step, and the run still ends: after `n` steps
with an observer that always continues, the accumulator, the program counter and memory are the same, `n` steps
are counted, and at the budget the run is done (log entry 5). -/
def Obligations.JumpToItselfHoldsTheMachine : Prop :=
  ∀ (s : State) (n : Nat), s.status = .running → s.awaiting = false → s.replies = [] → s.steps < 32 →
    s.steps + n ≤ 32 → decode (s.mem.read s.pc) = .jmp s.pc →
    ∃ t, run n s = .next t ∧ t.acc = s.acc ∧ t.pc = s.pc ∧ t.mem = s.mem ∧ t.steps = s.steps + n ∧
      (t.status = .done ↔ s.steps + n = 32)

/-- Once a run has ended, as `done` or as `aborted`, no step changes anything (R17, R131; that such a step answers the
same state is the model's reading, log entry 4). -/
def Obligations.EndedRunStaysPut : Prop :=
  ∀ (s : State) (n : Nat), s.status ≠ .running → run n s = .next s

/-! ### The observer -/

/-- R84: an observer that withholds its answer for `d` looks delays the run and does nothing else. While it has not
answered, the core's state stays as it is (waiting is the model's own convention, log entry 6). -/
def Obligations.LateAnswersOnlyDelay : Prop :=
  (∀ (s : State) (r : Reply) (d : Nat) (rest : List (Option Reply)), s.status = .running → s.awaiting = false →
    run (d + 1) { s with replies := List.replicate d none ++ some r :: rest } =
      step { s with replies := some r :: rest }) ∧
  (∀ (s : State) (rest : List (Option Reply)), s.status = .running → s.awaiting = true →
    step { s with replies := none :: rest } = .next { s with replies := rest })

/-- R84: the observer can do nothing but answer: what a step makes of `pc`, `acc`, `mem` and `steps`, and the event it
emits, are the same whatever answers are to come and whatever trace went before. -/
def Obligations.ObserverCannotTouchTheCore : Prop :=
  ∀ (s t u : State) (rs : List (Option Reply)) (tr : List StepEvent), s.status = .running → s.awaiting = false →
    step s = .next t → step { s with replies := rs, trace := tr } = .next u →
    u.pc = t.pc ∧ u.acc = t.acc ∧ u.mem = t.mem ∧ u.steps = t.steps ∧ u.trace.getLast? = t.trace.getLast?

/-- An abort after a step changes only the run status: the same step answered by `continue` leaves the same `pc`,
`acc`, `mem`, `steps` and trace. An abort is examined before the step count, so after the 32nd step it gives
`aborted` where `continue` gives `done` (R83, R123, R124, by the spec's decision D7). -/
def Obligations.AbortChangesOnlyTheStatus : Prop :=
  ∀ (s : State) (rest : List (Option Reply)), s.status = .running → s.awaiting = false →
    ∃ t, step { s with replies := some .cont :: rest } = .next t ∧
      step { s with replies := some .abort :: rest } = .next { t with status := .aborted } ∧
      t.status = (if t.steps = 32 then .done else .running) ∧ t.replies = rest ∧ t.awaiting = false

/-! ### The host's moves -/

/-- R88: the host cannot write `pc`, `acc`, `mem`, `steps` or `status`, cannot inject an instruction, and cannot skip or
repeat a step. An answer leaves all of them, and the next instruction, as they are; the step taken after it counts
one step and has the effect and the event of the step without it. That the host has no move but launching and
answering is the assumption of log entry 18. -/
def Obligations.HostCannotWriteInjectOrSkip : Prop :=
  (∀ (s : State) (r : Option Reply), (s.hostMove (.answer r)).pc = s.pc ∧ (s.hostMove (.answer r)).acc = s.acc ∧
    (s.hostMove (.answer r)).mem = s.mem ∧ (s.hostMove (.answer r)).steps = s.steps ∧
    (s.hostMove (.answer r)).status = s.status ∧ (s.hostMove (.answer r)).trace = s.trace ∧
    (s.hostMove (.answer r)).decoded = s.decoded) ∧
  (∀ (s t : State) (r : Option Reply), s.status = .running → s.awaiting = false → step s = .next t →
    ∃ u, step (s.hostMove (.answer r)) = .next u ∧ u.pc = t.pc ∧ u.acc = t.acc ∧ u.mem = t.mem ∧
      u.steps = s.steps + 1 ∧ u.steps = t.steps ∧ u.trace = t.trace)

/-- R88: the host cannot resume a run that has ended. Whatever steps and answers follow, nothing of the state changes
but the answers to come, as long as no new run is launched (that a step then answers the same state is the model's
reading, log entry 4; the host's moves, log entry 18). -/
def Obligations.EndedRunCannotBeResumed : Prop :=
  ∀ (acts : List Action) (s : State), s.status ≠ .running → (∀ img, Action.host (.launch img) ∉ acts) →
    ∃ t, session acts s = .next t ∧ t = { s with replies := t.replies }

/-- Every move of the host keeps the invariant, and every session, any mix of steps of the core and moves of the host
from a state with the invariant, completes and ends in such a state; so does a launch within it (R88; the host's
moves, log entry 18). -/
def Obligations.EverySessionKeepsTheInvariant : Prop :=
  (∀ (s : State) (m : HostMove), s.Inv → (s.hostMove m).Inv) ∧
  (∀ (acts : List Action) (s : State), s.Inv → ∃ t, session acts s = .next t ∧ t.Inv) ∧
  (∀ (acts rest : List Action) (img : Image) (s : State),
    session (acts ++ .host (.launch img) :: rest) s = session rest (State.launch img []))

/-- To place a word right after a launch is to launch the image that has the word at address 0: there, the placing is
a move the host has (R88, R142, log entries 2 and 18). -/
def Obligations.PlacingAfterLaunchIsALaunch : Prop :=
  ∀ (img : Image) (rs : List (Option Reply)) (w : Nat),
    (State.launch img rs).withFetchWord 8 w = State.launch (img.set 0 (BitVec.ofNat 8 w)) rs

/-! ### From text to image -/

/-- R61: the mnemonic resolver: the listed tokens, exact and case-sensitive, and CLEAR for anything else, the empty
token and the token `CLEAR` too. All four branch spellings are one instruction. -/
def Obligations.MnemonicResolver : Prop :=
  (∀ tok : List Char,
    (resolve tok = .inc ↔ tok ∈ ["INC1".toList, "INC".toList]) ∧ (resolve tok = .add ↔ tok = "ADD".toList) ∧
    (resolve tok = .dec ↔ tok ∈ ["DEC1".toList, "DEC".toList]) ∧ (resolve tok = .jmp ↔ tok = "JMP".toList) ∧
    (resolve tok = .bnz ↔ tok ∈ ["BUZ".toList, "BNZ".toList, "BZC".toList, "BNE".toList]) ∧
    (resolve tok = .load ↔ tok = "LOAD".toList) ∧ (resolve tok = .store ↔ tok = "STORE".toList)) ∧
  resolve [] = .clear ∧ resolve "CLEAR".toList = .clear

/-- R62: an operand token is consumed after ADD, JMP, BNZ, LOAD and STORE and not after CLEAR, INC and DEC. The operand
bits that are emitted for those three are 0 by the spec's decision D11 (R63, log entry 13). Malformed and missing
operand tokens are the subject of `MalformedOperandsRejectTheText`. -/
def Obligations.OperandRequiredForFiveOpcodes : Prop :=
  (∀ o : Opcode, operandRequired o = false ↔ o ∈ [Opcode.clear, .inc, .dec]) ∧
  (∀ (n : Nat) (tok k : List Char) (rest : List (List Char)) (v : Operand), parseOperand k = some v →
    operandRequired (resolve tok) = true →
    assembleTokens (n + 1) (tok :: k :: rest) = (assembleTokens n rest).map (encodeFields (resolve tok) v :: ·)) ∧
  (∀ (n : Nat) (tok : List Char) (rest : List (List Char)), operandRequired (resolve tok) = false →
    assembleTokens (n + 1) (tok :: rest) = (assembleTokens n rest).map (encodeFields (resolve tok) 0 :: ·))

/-- R63, by the spec's decision D12 (log entry 13): where an operand is required, a missing token, or one that is not a
decimal integer in 0 to 31, rejects the text from that point on, whatever follows. A token with a character that is
no digit, the empty token and a number above 31 are no such integer, and the decimal digits of a number below 32
are. What a decimal integer may look like beyond that is the model's choice (log entry 13). -/
def Obligations.MalformedOperandsRejectTheText : Prop :=
  (∀ (n : Nat) (tok k : List Char) (rest : List (List Char)), operandRequired (resolve tok) = true →
    assembleTokens (n + 1) [tok] = none ∧
    (parseOperand k = none → assembleTokens (n + 1) (tok :: k :: rest) = none)) ∧
  parseOperand [] = none ∧ (∀ (k : List Char) (c : Char), c ∈ k → c.isDigit = false → parseOperand k = none) ∧
  (∀ (k : List Char) (n : Nat), decimalFrom k 0 = some n → 32 ≤ n → parseOperand k = none) ∧
  (∀ v : Operand, parseOperand (Nat.toDigits 10 v.toNat) = some v)

/-- Every word of an assembled image is canonical: a CLEAR, INC or DEC has operand bits 0, so no text yields a data
word 1 to 31 (R60, R63, by the spec's decisions D11 and D3). -/
def Obligations.AssembledWordsAreCanonical : Prop :=
  ∀ (text : List Char) (img : Image) (a : Addr), assemble text = some img →
    operandRequired (opcodeOf img[a.toNat]) = false → operandOf img[a.toNat] = 0
end

