-- ==== Sys2Proof/Laws/Memory.lean ====
section
/-! SUPPORT. The laws of memory: what a read returns after a write, that every operation keeps the canonical form,
and that a memory in that form is determined by what its addresses read as. -/

namespace Sys2Proof.Machine

/-! ### What an address reads as, entry by entry -/

theorem Memory.wordAt_erase (m : Memory) (a b : Nat) :
    (m.erase a).wordAt b = if b = a then Config.unlistedWord else m.wordAt b := by
  induction m with
  | nil => simp [Memory.erase, Memory.wordAt]
  | cons c m ih =>
    obtain ⟨x, v⟩ := c
    rw [Memory.erase] at ih ⊢
    by_cases hx : x = a
    · subst hx
      by_cases hb : b = x
      · subst hb; simpa using ih
      · simp [ih, Memory.wordAt, hb, Ne.symm hb]
    · by_cases hb : b = a
      · subst hb; simp [ih, Memory.wordAt, hx]
      · simp [ih, Memory.wordAt, hx, hb]

theorem Memory.wordAt_insertCell (m : Memory) (a b : Nat) (v : Word) (h : m.wordAt a = Config.unlistedWord)
    (ha : ∀ c ∈ m, c.1 ≠ a) : (m.insertCell a v).wordAt b = if b = a then v else m.wordAt b := by
  induction m with
  | nil => simp [Memory.insertCell, Memory.wordAt, eq_comm]
  | cons c m ih =>
    obtain ⟨x, w⟩ := c
    have hx : x ≠ a := ha (x, w) (by simp)
    have ih := ih (by simpa [Memory.wordAt, hx] using h) (fun c hc => ha c (by simp [hc]))
    by_cases hlt : a < x
    · simp [Memory.insertCell, hlt, Memory.wordAt, eq_comm]
    · by_cases hb : x = b
      · subst hb; simp [Memory.insertCell, hlt, Memory.wordAt, hx]
      · simp [Memory.insertCell, hlt, Memory.wordAt, hb, ih]

/-- A write sets one word and leaves every other (R34), in any memory. -/
theorem Memory.read_write (m : Memory) (a b : Addr) (v : Word) :
    (m.write a v).read b = if b = a then v else m.read b := by
  have hab : b.toNat = a.toNat ↔ b = a := BitVec.toNat_inj
  unfold Memory.write Memory.read
  split
  · rw [Memory.wordAt_erase]; simp [*]
  · rw [Memory.wordAt_insertCell _ _ _ _ (by simp [Memory.wordAt_erase])
      (fun c hc => by simpa [Memory.erase] using (List.mem_filter.mp hc).2), Memory.wordAt_erase]
    by_cases h : b = a <;> simp [hab, h]

theorem Memory.read_write_self (m : Memory) (a : Addr) (v : Word) : (m.write a v).read a = v := by
  simp [Memory.read_write]

theorem Memory.read_write_of_ne (m : Memory) {a b : Addr} (v : Word) (h : b ≠ a) :
    (m.write a v).read b = m.read b := by simp [Memory.read_write, h]

/-! ### The canonical form is kept -/

theorem Memory.wf_filter {m : Memory} (h : m.wf) (p : Host.Cell → Bool) : Memory.wf (m.filter p) :=
  ⟨fun c hc => h.1 c (List.mem_filter.mp hc).1, h.2.1.filter p, fun c hc => h.2.2 c (List.mem_filter.mp hc).1⟩

theorem Memory.mem_insertCell {m : Memory} {a : Nat} {v : Word} {c : Host.Cell} :
    c ∈ m.insertCell a v ↔ c = (a, v) ∨ c ∈ m := by
  induction m with
  | nil => simp [Memory.insertCell]
  | cons d m ih =>
    obtain ⟨x, w⟩ := d
    by_cases hlt : a < x
    · simp [Memory.insertCell, hlt]
    · simp only [Memory.insertCell, hlt, if_false, List.mem_cons, ih]; tauto

theorem Memory.rising_insertCell {m : Memory} (h : m.Rising) {a : Nat} (v : Word) (ha : ∀ c ∈ m, c.1 ≠ a) :
    Memory.Rising (m.insertCell a v) := by
  induction m with
  | nil => simp [Memory.insertCell, Memory.Rising]
  | cons d m ih =>
    obtain ⟨x, w⟩ := d
    obtain ⟨hd, hm⟩ := List.pairwise_cons.mp h
    have hx : x ≠ a := ha (x, w) (by simp)
    by_cases hlt : a < x
    · rw [Memory.insertCell, if_pos hlt]
      refine List.pairwise_cons.mpr ⟨fun c hc => ?_, h⟩
      rcases List.mem_cons.mp hc with rfl | hc
      · exact hlt
      · exact Nat.lt_trans hlt (hd c hc)
    · rw [Memory.insertCell, if_neg hlt]
      refine List.pairwise_cons.mpr ⟨fun c hc => ?_, ih hm (fun c hc => ha c (by simp [hc]))⟩
      rcases Memory.mem_insertCell.mp hc with rfl | hc
      · show x < a; omega
      · exact hd c hc

/-- A write keeps the canonical form. -/
theorem Memory.wf_write {m : Memory} (h : m.wf) (a : Addr) (v : Word) : (m.write a v).wf := by
  have he : Memory.wf (m.erase a.toNat) := Memory.wf_filter h _
  unfold Memory.write
  split
  · exact he
  · rename_i hv
    refine ⟨fun c hc => ?_, Memory.rising_insertCell he.2.1 v (fun c hc => ?_), fun c hc => ?_⟩
    · rcases Memory.mem_insertCell.mp hc with rfl | hc
      · exact a.isLt
      · exact he.1 c hc
    · simpa [Memory.erase] using (List.mem_filter.mp hc).2
    · rcases Memory.mem_insertCell.mp hc with rfl | hc
      · exact hv
      · exact he.2.2 c hc

/-- Reset memory, nothing listed, is in canonical form. -/
theorem Memory.wf_nil : Memory.wf [] := ⟨by simp, List.Pairwise.nil, by simp⟩

theorem Memory.rising_zipIdx (ws : List Word) (n : Nat) :
    Memory.Rising ((ws.zipIdx n).map (fun p => (p.2, p.1))) := by
  induction ws generalizing n with
  | nil => simp [Memory.Rising]
  | cons w ws ih =>
    refine List.pairwise_cons.mpr ⟨fun c hc => ?_, ih (n + 1)⟩
    obtain ⟨p, hp, rfl⟩ := List.mem_map.mp hc
    have := List.le_snd_of_mem_zipIdx hp
    show n < p.2; omega

/-- The memory that holds an image is in canonical form. -/
theorem Memory.wf_ofImage (img : Image) : (Memory.ofImage img).wf := by
  refine ⟨fun c hc => ?_, (Memory.rising_zipIdx _ 0).filter _, fun c hc => by simpa using (List.mem_filter.mp hc).2⟩
  obtain ⟨p, hp, rfl⟩ := List.mem_map.mp (List.mem_filter.mp hc).1
  have := List.snd_lt_of_mem_zipIdx hp
  simpa [Config.memWords] using this

/-! ### Reading an image -/

theorem Memory.wordAt_filter (m : Memory) (a : Nat) (h : m.Rising) :
    Memory.wordAt (m.filter (fun c => c.2 != Config.unlistedWord)) a = m.wordAt a := by
  induction m with
  | nil => rfl
  | cons c m ih =>
    obtain ⟨x, v⟩ := c
    obtain ⟨hx, hm⟩ := List.pairwise_cons.mp h
    have ih := ih hm
    by_cases hv : v = Config.unlistedWord
    · have hnone : ∀ m' : Memory, (∀ c ∈ m', x < c.1) → m'.wordAt x = Config.unlistedWord := by
        intro m' h'
        induction m' with
        | nil => rfl
        | cons d m' ih' =>
          have := h' d (by simp)
          rw [Memory.wordAt, if_neg (by omega)]
          exact ih' (fun c hc => h' c (by simp [hc]))
      by_cases hxa : x = a
      · subst hxa; simp [hv, ih, Memory.wordAt, hnone m hx]
      · simp [hv, ih, Memory.wordAt, hxa]
    · by_cases hxa : x = a <;> simp [hv, ih, Memory.wordAt, hxa]

theorem Memory.wordAt_zipIdx (ws : List Word) (n a : Nat) (h : n ≤ a) :
    Memory.wordAt ((ws.zipIdx n).map (fun p => (p.2, p.1))) a = ws.getD (a - n) Config.unlistedWord := by
  induction ws generalizing n with
  | nil => rfl
  | cons w ws ih =>
    by_cases hna : n = a
    · simp [hna, Memory.wordAt]
    · have : a - n = (a - (n + 1)) + 1 := by omega
      simp only [List.zipIdx_cons, List.map_cons, Memory.wordAt, hna, if_false, ih (n + 1) (by omega), this,
        List.getD_cons_succ]

/-- Address `a` of the memory that holds an image reads as the image's word `a` (R20). -/
theorem Memory.read_ofImage (img : Image) (a : Addr) : (Memory.ofImage img).read a = img[a.toNat] := by
  unfold Memory.read Memory.ofImage
  rw [Memory.wordAt_filter _ _ (Memory.rising_zipIdx _ 0), Memory.wordAt_zipIdx _ 0 _ (Nat.zero_le _)]
  have : a.toNat < img.toList.length := by simpa using a.isLt
  simp [List.getD_eq_getElem?_getD, List.getElem?_eq_getElem this]

end Sys2Proof.Machine
end

