-- ==== Sys2Proof/Laws/State.lean ====
section
/-! SUPPORT. One lemma per field per update, so that no later proof unfolds a record update. -/

namespace Sys2Proof.Machine

variable (s : State)

/-! ### setAcc -/

@[simp] theorem State.setAcc_pc (v : Word) : (s.setAcc v).pc = s.pc := rfl
@[simp] theorem State.setAcc_acc (v : Word) : (s.setAcc v).acc = v := rfl
@[simp] theorem State.setAcc_mem (v : Word) : (s.setAcc v).mem = s.mem := rfl
@[simp] theorem State.setAcc_steps (v : Word) : (s.setAcc v).steps = s.steps := rfl
@[simp] theorem State.setAcc_status (v : Word) : (s.setAcc v).status = s.status := rfl
@[simp] theorem State.setAcc_awaiting (v : Word) : (s.setAcc v).awaiting = s.awaiting := rfl
@[simp] theorem State.setAcc_replies (v : Word) : (s.setAcc v).replies = s.replies := rfl
@[simp] theorem State.setAcc_trace (v : Word) : (s.setAcc v).trace = s.trace := rfl

/-! ### setPc -/

@[simp] theorem State.setPc_pc (a : Addr) : (s.setPc a).pc = a := rfl
@[simp] theorem State.setPc_acc (a : Addr) : (s.setPc a).acc = s.acc := rfl
@[simp] theorem State.setPc_mem (a : Addr) : (s.setPc a).mem = s.mem := rfl
@[simp] theorem State.setPc_steps (a : Addr) : (s.setPc a).steps = s.steps := rfl
@[simp] theorem State.setPc_status (a : Addr) : (s.setPc a).status = s.status := rfl
@[simp] theorem State.setPc_awaiting (a : Addr) : (s.setPc a).awaiting = s.awaiting := rfl
@[simp] theorem State.setPc_replies (a : Addr) : (s.setPc a).replies = s.replies := rfl
@[simp] theorem State.setPc_trace (a : Addr) : (s.setPc a).trace = s.trace := rfl

/-! ### advance -/

@[simp] theorem State.advance_pc : s.advance.pc = nextAddr s.pc := rfl
@[simp] theorem State.advance_acc : s.advance.acc = s.acc := rfl
@[simp] theorem State.advance_mem : s.advance.mem = s.mem := rfl
@[simp] theorem State.advance_steps : s.advance.steps = s.steps := rfl
@[simp] theorem State.advance_status : s.advance.status = s.status := rfl
@[simp] theorem State.advance_awaiting : s.advance.awaiting = s.awaiting := rfl
@[simp] theorem State.advance_replies : s.advance.replies = s.replies := rfl
@[simp] theorem State.advance_trace : s.advance.trace = s.trace := rfl

/-! ### memWrite -/

@[simp] theorem State.memWrite_pc (a : Addr) (v : Word) : (s.memWrite a v).pc = s.pc := rfl
@[simp] theorem State.memWrite_acc (a : Addr) (v : Word) : (s.memWrite a v).acc = s.acc := rfl
@[simp] theorem State.memWrite_mem (a : Addr) (v : Word) : (s.memWrite a v).mem = s.mem.write a v := rfl
@[simp] theorem State.memWrite_steps (a : Addr) (v : Word) : (s.memWrite a v).steps = s.steps := rfl
@[simp] theorem State.memWrite_status (a : Addr) (v : Word) : (s.memWrite a v).status = s.status := rfl
@[simp] theorem State.memWrite_awaiting (a : Addr) (v : Word) : (s.memWrite a v).awaiting = s.awaiting := rfl
@[simp] theorem State.memWrite_replies (a : Addr) (v : Word) : (s.memWrite a v).replies = s.replies := rfl
@[simp] theorem State.memWrite_trace (a : Addr) (v : Word) : (s.memWrite a v).trace = s.trace := rfl

/-! ### aluStep -/

@[simp] theorem State.aluStep_pc (op : AluOp) (k : Operand) : (s.aluStep op k).pc = nextAddr s.pc := rfl
@[simp] theorem State.aluStep_acc (op : AluOp) (k : Operand) : (s.aluStep op k).acc = alu op s.acc k := rfl
@[simp] theorem State.aluStep_mem (op : AluOp) (k : Operand) : (s.aluStep op k).mem = s.mem := rfl
@[simp] theorem State.aluStep_steps (op : AluOp) (k : Operand) : (s.aluStep op k).steps = s.steps := rfl
@[simp] theorem State.aluStep_status (op : AluOp) (k : Operand) : (s.aluStep op k).status = s.status := rfl
@[simp] theorem State.aluStep_awaiting (op : AluOp) (k : Operand) : (s.aluStep op k).awaiting = s.awaiting := rfl
@[simp] theorem State.aluStep_replies (op : AluOp) (k : Operand) : (s.aluStep op k).replies = s.replies := rfl
@[simp] theorem State.aluStep_trace (op : AluOp) (k : Operand) : (s.aluStep op k).trace = s.trace := rfl

/-! ### report -/

@[simp] theorem State.report_pc (i : Instr) : (s.report i).pc = s.pc := rfl
@[simp] theorem State.report_acc (i : Instr) : (s.report i).acc = s.acc := rfl
@[simp] theorem State.report_mem (i : Instr) : (s.report i).mem = s.mem := rfl
@[simp] theorem State.report_steps (i : Instr) : (s.report i).steps = s.steps + 1 := rfl
@[simp] theorem State.report_status (i : Instr) : (s.report i).status = s.status := rfl
@[simp] theorem State.report_awaiting (i : Instr) : (s.report i).awaiting = s.awaiting := rfl
@[simp] theorem State.report_replies (i : Instr) : (s.report i).replies = s.replies := rfl
@[simp] theorem State.report_trace (i : Instr) : (s.report i).trace = s.trace ++ [s.event i] := rfl

/-! ### launch -/

variable (img : Image) (rs : List (Option Reply))

@[simp] theorem State.launch_pc : (State.launch img rs).pc = 0 := rfl
@[simp] theorem State.launch_acc : (State.launch img rs).acc = 0 := rfl
@[simp] theorem State.launch_mem : (State.launch img rs).mem = Memory.ofImage img := rfl
@[simp] theorem State.launch_steps : (State.launch img rs).steps = 0 := rfl
@[simp] theorem State.launch_status : (State.launch img rs).status = .running := rfl
@[simp] theorem State.launch_awaiting : (State.launch img rs).awaiting = false := rfl
@[simp] theorem State.launch_replies : (State.launch img rs).replies = rs := rfl
@[simp] theorem State.launch_trace : (State.launch img rs).trace = [] := rfl

/-! ### The fields of a step event -/

variable (i : Instr)

@[simp] theorem State.event_index : (s.event i).index = BitVec.ofNat 5 s.steps := rfl
@[simp] theorem State.event_opcode : (s.event i).opcode = i.opcode := rfl
@[simp] theorem State.event_operand : (s.event i).operand = i.operand := rfl
@[simp] theorem State.event_acc : (s.event i).acc = s.acc := rfl
@[simp] theorem State.event_pc : (s.event i).pc = s.pc := rfl
@[simp] theorem State.event_mem : (s.event i).mem = s.mem := rfl

/-! ### hostMove -/

variable (r : Option Reply)

@[simp] theorem State.hostMove_answer_pc : (s.hostMove (.answer r)).pc = s.pc := rfl
@[simp] theorem State.hostMove_answer_acc : (s.hostMove (.answer r)).acc = s.acc := rfl
@[simp] theorem State.hostMove_answer_mem : (s.hostMove (.answer r)).mem = s.mem := rfl
@[simp] theorem State.hostMove_answer_steps : (s.hostMove (.answer r)).steps = s.steps := rfl
@[simp] theorem State.hostMove_answer_status : (s.hostMove (.answer r)).status = s.status := rfl
@[simp] theorem State.hostMove_answer_awaiting : (s.hostMove (.answer r)).awaiting = s.awaiting := rfl
@[simp] theorem State.hostMove_answer_replies : (s.hostMove (.answer r)).replies = s.replies ++ [r] := rfl
@[simp] theorem State.hostMove_answer_trace : (s.hostMove (.answer r)).trace = s.trace := rfl
@[simp] theorem State.hostMove_launch : s.hostMove (.launch img) = State.launch img [] := rfl

end Sys2Proof.Machine
end

