-- ==== Sys2Proof/Laws/Ops.lean ====
section
/-! SUPPORT. One lemma per shared operation that says everything it can do. -/

namespace Sys2Proof.Machine

/-- A look for the observer's answer ends in one of four ways: it changes only the run status and the list of
answers to come. -/
theorem State.takeReply_cases (s : State) :
    (s.replies.head? = some (some .abort) ∧
      s.takeReply = { s with replies := s.replies.tail, status := .aborted, awaiting := false }) ∨
    (s.replies.head? = some none ∧ s.takeReply = { s with replies := s.replies.tail, awaiting := true }) ∨
    ((s.replies = [] ∨ s.replies.head? = some (some .cont)) ∧ s.steps = Config.stepBudget ∧
      s.takeReply = { s with replies := s.replies.tail, status := .done, awaiting := false }) ∨
    ((s.replies = [] ∨ s.replies.head? = some (some .cont)) ∧ s.steps ≠ Config.stepBudget ∧
      s.takeReply = { s with replies := s.replies.tail, awaiting := false }) := by
  obtain ⟨pc, acc, mem, steps, status, awaiting, replies, trace⟩ := s
  by_cases hb : steps = Config.stepBudget <;> rcases replies with _ | ⟨_ | _ | _, rest⟩ <;>
    simp [State.takeReply, State.answered, hb]

variable (s : State)

theorem State.takeReply_eq : s.takeReply = { s with
    replies := s.takeReply.replies, status := s.takeReply.status, awaiting := s.takeReply.awaiting } := by
  rcases s.takeReply_cases with ⟨_, h⟩ | ⟨_, h⟩ | ⟨_, _, h⟩ | ⟨_, _, h⟩ <;> simp [h]

@[simp] theorem State.takeReply_pc : s.takeReply.pc = s.pc := by rw [State.takeReply_eq]
@[simp] theorem State.takeReply_acc : s.takeReply.acc = s.acc := by rw [State.takeReply_eq]
@[simp] theorem State.takeReply_mem : s.takeReply.mem = s.mem := by rw [State.takeReply_eq]
@[simp] theorem State.takeReply_steps : s.takeReply.steps = s.steps := by rw [State.takeReply_eq]
@[simp] theorem State.takeReply_trace : s.takeReply.trace = s.trace := by rw [State.takeReply_eq]

/-- What the effect of an instruction leaves alone: the run control and the observer's side. -/
theorem exec_keeps_run {i : Instr} {s t : State} (h : exec i s = .next t) :
    t.steps = s.steps ∧ t.status = s.status ∧ t.awaiting = s.awaiting ∧ t.replies = s.replies ∧
      t.trace = s.trace := by
  cases i <;> cases h <;> simp

/-- What the effect of an instruction does to memory: nothing, or one write of the accumulator. -/
theorem exec_mem_cases {i : Instr} {s t : State} (h : exec i s = .next t) :
    t.mem = s.mem ∨ ∃ a, i = .store a ∧ t.mem = s.mem.write (dataAddress a) s.acc := by
  cases i <;> cases h <;> simp [State.memWrite, State.advance, State.setPc]

/-- The inversion lemma of a step: the run has ended, or an answer is awaited, or one instruction is executed. -/
theorem step_cases {s t : State} (h : step s = .next t) :
    (s.status ≠ .running ∧ t = s) ∨
    (s.status = .running ∧ s.awaiting = true ∧ t = s.takeReply) ∨
    (s.status = .running ∧ s.awaiting = false ∧ ∃ u, exec s.decoded s = .next u ∧ t = u.finish s.decoded) := by
  unfold step at h
  split at h
  · rename_i hr
    split at h
    · rename_i ha; cases h; exact .inr (.inl ⟨hr, ha, rfl⟩)
    · rename_i ha
      split at h
      · rename_i u hu; cases h; exact .inr (.inr ⟨hr, by simpa using ha, u, hu, rfl⟩)
      · cases h
      · cases h
  · rename_i hd; cases h; exact .inl ⟨by simp [hd], rfl⟩
  · rename_i hd; cases h; exact .inl ⟨by simp [hd], rfl⟩

end Sys2Proof.Machine
end

