-- ==== Sys2Proof/Laws/PerInstr.lean ====
section
/-! SUPPORT. The statements made per instruction: the family `EncodedFields`. -/

namespace Sys2Proof.Laws.EncodedFields

/-- The word of an instruction carries its opcode in bits 7 to 5 and its operand in bits 4 to 0 (spec R50, R52). -/
def Statement (i : Instr) : Prop := opcodeOf (encode i) = i.opcode ∧ operandOf (encode i) = i.operand

/-- The fields of a word that is put together from an opcode and an operand. -/
theorem fields_encodeFields (o : Opcode) (k : Operand) :
    opcodeOf (encodeFields o k) = o ∧ operandOf (encodeFields o k) = k := by
  revert k; cases o <;> decide

theorem clear (k : Operand) : Statement (.clear k) := fields_encodeFields .clear k
theorem inc (k : Operand) : Statement (.inc k) := fields_encodeFields .inc k
theorem add (k : Operand) : Statement (.add k) := fields_encodeFields .add k
theorem dec (k : Operand) : Statement (.dec k) := fields_encodeFields .dec k
theorem jmp (a : Operand) : Statement (.jmp a) := fields_encodeFields .jmp a
theorem bnz (a : Operand) : Statement (.bnz a) := fields_encodeFields .bnz a
theorem load (a : Operand) : Statement (.load a) := fields_encodeFields .load a
theorem store (a : Operand) : Statement (.store a) := fields_encodeFields .store a

end Sys2Proof.Laws.EncodedFields
end

