-- ==== Sys2Proof/Laws/Run.lean ====
section
/-! SUPPORT. Runs and sessions: the model's `run` is the host's, what every step keeps holds after any number of steps, and
what the host's moves keep too holds after any session. -/

namespace Sys2Proof.Machine

theorem hostRun_next (M : Host.Core) (n : Nat) {s t : M.State} (h : M.step s = .next t) :
    M.run (n + 1) s = M.run n t := by simp [Host.Core.run, h]

theorem hostRun_fault (M : Host.Core) (n : Nat) {s : M.State} {r : M.Fault} (h : M.step s = .fault r) :
    M.run (n + 1) s = .fault r := by simp [Host.Core.run, h]

theorem hostRun_refused (M : Host.Core) (n : Nat) {s : M.State} {r : M.Refusal} (h : M.step s = .refused r) :
    M.run (n + 1) s = .refused r := by simp [Host.Core.run, h]

/-- The model's `run` is the host's run of its machine. -/
theorem core_run (n : Nat) (s : State) : Sys2Proof.core.run n s = run n s := by
  induction n generalizing s with
  | zero => rfl
  | succ n ih =>
    rw [run]
    cases h : step s with
    | next t => exact (hostRun_next Sys2Proof.core n h).trans (ih t)
    | fault r => exact hostRun_fault Sys2Proof.core n h
    | refused r => exact hostRun_refused Sys2Proof.core n h

theorem run_of_step {s t : State} (h : step s = .next t) (n : Nat) : run (n + 1) s = run n t := by rw [run, h]

/-- A run is a shorter run and then the rest of it. -/
theorem run_add {s t : State} {n : Nat} (h : run n s = .next t) (m : Nat) : run (n + m) s = run m t := by
  induction n generalizing s with
  | zero => cases h; simp
  | succ n ih =>
    rw [run] at h
    split at h
    · rename_i u hu
      rw [Nat.add_right_comm, run_of_step hu, ih h]
    · cases h
    · cases h

/-- What every step keeps holds after any number of steps: the induction over a run, once. -/
theorem run_keeps {P : State → Prop} (hP : ∀ s t, P s → step s = .next t → P t) {n : Nat} {s t : State}
    (hs : P s) (h : run n s = .next t) : P t := by
  induction n generalizing s with
  | zero => cases h; exact hs
  | succ n ih =>
    rw [run] at h
    split at h
    · rename_i u hu; exact ih (hP s u hs hu) h
    · cases h
    · cases h

/-- What every step and every move of the host keeps holds after any session: the induction over a session, once. -/
theorem session_keeps {P : State → Prop} (hP : ∀ s t, P s → step s = .next t → P t)
    (hM : ∀ s m, P s → P (s.hostMove m)) {acts : List Action} {s t : State}
    (hs : P s) (h : session acts s = .next t) : P t := by
  induction acts generalizing s with
  | nil => cases h; exact hs
  | cons a acts ih =>
    cases a with
    | host m => exact ih (hM s m hs) h
    | core =>
      rw [session] at h
      split at h
      · rename_i u hu; exact ih (hP s u hs hu) h
      · cases h
      · cases h

end Sys2Proof.Machine
end

