-- ==== Sys2Proof/Tests/Slice0.lean ====
section
/-! SUPPORT. Tests. Expected results are the spec's own (95_test_vectors.md S1 to S12, V1 to V5, P1 to P6) or are
worked out by hand from its rules. The `test_meets_` theorems show, for a statement with hypotheses, a concrete state
and operands that meet them together. -/

namespace Sys2Proof.Machine.Tests

/-! ### Helpers -/

/-- A state in which a step is enabled: a program counter, an accumulator, a memory in canonical form. -/
def at' (pc : Addr) (acc : Word) (m : Memory) : State := { State.reset with pc := pc, acc := acc, mem := m }

/-- The state an outcome holds, or the one before. -/
def after (s : State) : State :=
  match step s with
  | .next t => t
  | .fault _ => s
  | .refused _ => s

/-- The accumulator, `Z` and the program counter after one step. -/
def azp (s : State) : Word × Bool × Addr := ((after s).acc, (after s).z, (after s).pc)

/-! ### WellFormed: an ill-formed memory for each check. No instruction is ill-formed (R57). -/

theorem test_instr_all_wf : Instr.wf (.clear 31) ∧ Instr.wf (.store 31) := by decide
theorem test_wf_accepts : Memory.wf [(0, 0x43#8), (31, 0xFF#8)] := by decide
theorem test_wf_refuses_address_32 : ¬ Memory.wf [(32, 0x01#8)] := by decide
theorem test_wf_refuses_falling : ¬ Memory.wf [(5, 0x01#8), (4, 0x01#8)] := by decide
theorem test_wf_refuses_twice : ¬ Memory.wf [(5, 0x01#8), (5, 0x02#8)] := by decide
theorem test_wf_refuses_unlisted_value : ¬ Memory.wf [(5, 0x00#8)] := by decide

/-! ### Decode and encode: words written out from R54's table (V1) -/

theorem test_decode_clear : decode 0b00000111#8 = .clear 7 := by decide
theorem test_decode_inc : decode 0b00100000#8 = .inc 0 ∧ decode 0b00111111#8 = .inc 31 := by decide
theorem test_decode_add : decode 0b01000101#8 = .add 5 ∧ decode 0b01011111#8 = .add 31 := by decide
theorem test_decode_dec : decode 0b01100000#8 = .dec 0 := by decide
theorem test_decode_jmp : decode 0b10000101#8 = .jmp 5 := by decide
theorem test_decode_bnz : decode 0b10101100#8 = .bnz 12 := by decide
theorem test_decode_load : decode 0b11001010#8 = .load 10 := by decide
theorem test_decode_store : decode 0b11101010#8 = .store 10 ∧ decode 0xFF#8 = .store 31 := by decide
theorem test_encode : encode (.add 5) = 0x45#8 ∧ encode (.bnz 12) = 0xAC#8 ∧ encode (.dec 31) = 0x7F#8 := by decide
theorem test_table_word : decodeTableWord 8 0xC0 = some (.load 0) ∧ decodeTableWord 16 0xC0 = none := by decide

/-! ### One step of each instruction (V2, V3, V4) -/

theorem test_clear : azp (at' 4 0xA7 []) = (0x00, true, 5) := by decide
theorem test_clear_noncanonical : azp (at' 4 0xFF [(4, 0x1F#8)]) = (0x00, true, 5) := by decide
theorem test_inc_wraps : azp (at' 9 0xFF [(9, 0x20#8)]) = (0x00, true, 10) := by decide
theorem test_inc_ignores_operand : azp (at' 0 0x05 [(0, 0x3F#8)]) = (0x06, false, 1) := by decide
theorem test_add_wraps : azp (at' 0 0xF0 [(0, 0x5F#8)]) = (0x0F, false, 1) := by decide
theorem test_add_not_sign_extended : azp (at' 0 0xFF [(0, 0x5F#8)]) = (0x1E, false, 1) := by decide
theorem test_dec_wraps : azp (at' 2 0x00 [(2, 0x60#8)]) = (0xFF, false, 3) := by decide
theorem test_dec_to_zero : azp (at' 2 0x01 [(2, 0x7F#8)]) = (0x00, true, 3) := by decide
theorem test_jmp_back : azp (at' 17 0x33 [(17, 0x80#8)]) = (0x33, false, 0) := by decide
theorem test_jmp_self_at_top : azp (at' 31 0x00 [(31, 0x9F#8)]) = (0x00, true, 31) := by decide
theorem test_bnz_taken_on_sign_bit : azp (at' 6 0x80 [(6, 0xA1#8)]) = (0x80, false, 1) := by decide
theorem test_bnz_falls_through_at_top : azp (at' 31 0x00 [(31, 0xA5#8)]) = (0x00, true, 0) := by decide
theorem test_load_own_word : azp (at' 31 0x00 [(31, 0xDF#8)]) = (0xDF, false, 0) := by decide
theorem test_load_zero : azp (at' 1 0x55 [(1, 0xCA#8)]) = (0x00, true, 2) := by decide
theorem test_store_top : (after (at' 2 0xFF [(2, 0xFF#8), (31, 0x12#8)])).mem = [(2, 0xFF#8), (31, 0xFF#8)] := by decide
theorem test_store_over_itself : (after (at' 4 0x20 [(4, 0xE4#8)])).mem = [(4, 0x20#8)] ∧
    azp (at' 4 0x20 [(4, 0xE4#8)]) = (0x20, false, 5) := by decide
theorem test_store_zero_unlists : (after (at' 0 0x00 [(0, 0xE0#8)])).mem = [] := by decide
theorem test_store_next_is_executed : (after (at' 4 0x85 [(4, 0xE5#8)])).decoded = .jmp 5 := by decide

/-! ### Step accounting and run control (V5) -/

theorem test_event : (after (at' 0 0x00 [(0, 0x43#8)])).trace =
    [{ index := 0, opcode := .add, operand := 3, acc := 0x03, pc := 1, mem := [(0, 0x43#8)] }] := by decide
theorem test_last_step_done : (after { at' 7 0 [] with steps := 31 }).status = .done ∧
    (after { at' 7 0 [] with steps := 31 }).steps = 32 := by decide
theorem test_abort : (after { at' 7 0 [] with steps := 4, replies := [some .abort] }).status = .aborted ∧
    (after { at' 7 0 [] with steps := 4, replies := [some .abort] }).steps = 5 := by decide
theorem test_abort_before_budget :
    (after { at' 7 0 [] with steps := 31, replies := [some .abort] }).status = .aborted := by decide
theorem test_late_answer_waits : (after { at' 7 0 [] with replies := [none] }).awaiting = true ∧
    (after (after { at' 7 0 [] with replies := [none] })).steps = 1 := by decide
theorem test_ended_stays : after { at' 7 9 [] with status := .aborted } = { at' 7 9 [] with status := .aborted } := by
  decide
theorem test_reset : State.reset.z = true ∧ State.reset.fetch = 0x00 := by decide
theorem test_image : (Memory.ofImage (Image.ofWords [0x43#8, 0x00#8, 0xFE#8])) = [(0, 0x43#8), (2, 0xFE#8)] := by decide

/-! ### From text to image (S12, R64) -/

theorem test_assemble : assembleTokens 32 (tokens "ADD 3 INC1 BUZ 0".toList) = some [0x43#8, 0x20#8, 0xA0#8] := by decide
theorem test_assemble_lower_case : assembleTokens 32 (tokens "add 3".toList) = some [0x00#8, 0x00#8] := by decide
theorem test_assemble_strict : assembleTokens 32 (tokens "ADD 32".toList) = none ∧
    assembleTokens 32 (tokens "ADD".toList) = none ∧ assembleTokens 32 (tokens "LOAD -1".toList) = none := by decide

/-! ### Witnesses: the hypotheses of each statement are met -/

theorem test_meets_EncodeAndDecodeAreInverse : Instr.wf (.bnz 31) = true := rfl
theorem test_meets_IgnoredOperandBits : (0x1F#8).toNat ≤ 0x1F ∧ (0x20 ≤ (0x3F#8).toNat ∧ (0x3F#8).toNat ≤ 0x3F) ∧
    (0x60 ≤ (0x60#8).toNat ∧ (0x60#8).toNat ≤ 0x7F) := by decide
theorem test_meets_JmpToNext : (at' 30 0 []).pc.toNat < 31 ∧ (31#5).toNat = (at' 30 0 []).pc.toNat + 1 := by decide
/-- A step that executes `JMP 0` at 31 (JmpSetsTheProgramCounter, TargetsAreAbsoluteAndImmediate,
ProgramCounterSelection, OnlyTheNamedOpcodesWrite, StepCounterCountsEveryStep, OneEventAfterEachStep). -/
theorem test_meets_JmpStep : (at' 31 9 [(31, 0x80#8)]).status = .running ∧ (at' 31 9 [(31, 0x80#8)]).awaiting = false ∧
    decode ((at' 31 9 [(31, 0x80#8)]).mem.read 31) = .jmp 0 ∧
    ∃ t, step (at' 31 9 [(31, 0x80#8)]) = .next t ∧ t.pc = 0 := ⟨rfl, rfl, by decide, _, rfl, rfl⟩
theorem test_meets_BnzStep : (at' 31 0x80 [(31, 0xA0#8)]).status = .running ∧
    (at' 31 0x80 [(31, 0xA0#8)]).awaiting = false ∧ decode ((at' 31 0x80 [(31, 0xA0#8)]).mem.read 31) = .bnz 0 ∧
    (at' 31 0x80 [(31, 0xA0#8)]).acc ≠ 0 ∧ ∃ t, step (at' 31 0x80 [(31, 0xA0#8)]) = .next t ∧ t.pc = 0 :=
  ⟨rfl, rfl, by decide, by decide, _, rfl, rfl⟩
theorem test_meets_Bnz : (at' 0 0 []).z = true ∧ (at' 0 1 []).z = false := by decide
theorem test_meets_AccumulatorInstructionsFrame :
    (∀ i ∈ [Instr.clear 31, .inc 31, .add 31, .dec 31, .load 31], (∃ t, exec i State.reset = .next t)) ∧
    Instr.load 31 ∈ [Instr.clear 31, .inc 31, .add 31, .dec 31, .load 31] := by
  refine ⟨fun i h => ?_, by decide⟩
  simp only [List.mem_cons, List.not_mem_nil, or_false] at h
  rcases h with rfl | rfl | rfl | rfl | rfl <;> exact ⟨_, rfl⟩
theorem test_meets_ControlTransferFrame : Instr.bnz 3 ∈ [Instr.jmp 3, .bnz 3] ∧ (∃ t, exec (.bnz 3) State.reset = .next t) ∧
    Instr.jmp 3 ∈ [Instr.jmp 3, .bnz 3] ∧ ∃ t, exec (.jmp 3) State.reset = .next t :=
  ⟨by decide, ⟨_, rfl⟩, by decide, _, rfl⟩
theorem test_meets_StoreFrame : (∃ t, exec (.store 31) (at' 0 7 []) = .next t) ∧ dataAddress 31 = 31 ∧ (30 : Addr) ≠ 31 :=
  ⟨⟨_, rfl⟩, rfl, by decide⟩
theorem test_meets_ZeroFlag : (at' 3 0 []).acc = State.reset.acc ∧ Instr.store 1 ∈ [Instr.store 1, .jmp 1, .bnz 1] ∧
    (∃ t, exec (.store 1) State.reset = .next t) ∧ (at' 3 1 []).z = false := ⟨rfl, by decide, ⟨_, rfl⟩, by decide⟩
theorem test_meets_ArithmeticWrapsSilently : (Instr.dec 0, AluOp.dec) ∈
    [(Instr.clear 0, AluOp.clr), (.inc 0, .inc), (.add 0, .add), (.dec 0, .dec)] := by decide
theorem test_meets_OneAddressingMode : (30 : Addr) ≠ 31 ∧
    Instr.bnz 31 ∈ [Instr.clear 31, .inc 31, .add 31, .dec 31, .jmp 31, .bnz 31] := by decide
/-- A STORE to its own address, and one to the next address, at 31 the wrapped one (StoreStepWritesExactlyOneWord,
NextFetchSeesTheStore, and the differing reads of OnlyTheNamedOpcodesWrite). -/
theorem test_meets_StoreStep : (at' 31 7 [(31, 0xFF#8)]).status = .running ∧ (at' 31 7 [(31, 0xFF#8)]).awaiting = false ∧
    decode ((at' 31 7 [(31, 0xFF#8)]).mem.read 31) = .store 31 ∧
    (∃ t, step (at' 31 7 [(31, 0xFF#8)]) = .next t ∧ t.mem.read 31 ≠ (at' 31 7 [(31, 0xFF#8)]).mem.read 31) ∧
    decode ((at' 31 7 [(31, 0xE0#8)]).mem.read 31) = .store 0 ∧ (0 : Addr) = (at' 31 7 []).pc + 1 ∧
    ∃ t, step (at' 31 7 [(31, 0xE0#8)]) = .next t :=
  ⟨rfl, rfl, by decide, ⟨_, rfl, by decide⟩, by decide, by decide, _, rfl⟩
theorem test_meets_ReadReturnsTheLatestStore :
    ∃ t, run 2 (State.launch (Image.ofWords [0x45#8, 0xF4#8]) []) = .next t ∧ t.mem.read 20 = 5 := ⟨_, rfl, by decide⟩
theorem test_meets_TraceExplains :
    (State.launch (Image.ofWords [0xEA#8]) []).TraceExplains (Image.ofWords [0xEA#8]) ∧
    ∃ t, step (State.launch (Image.ofWords [0xEA#8]) []) = .next t :=
  ⟨fun a => Memory.read_ofImage _ a, _, rfl⟩
theorem test_meets_CanonicalMemories : Memory.wf [(0, 1#8), (31, 2#8)] := by decide
theorem test_meets_StepRuns : decode ((at' 31 5 [(31, 0xC0#8)]).mem.read 31) = .load 0 ∧
    ∃ t, exec (.load 0) (at' 31 5 [(31, 0xC0#8)]) = .next t := ⟨by decide, _, rfl⟩
theorem test_meets_StepCounter : ∃ t, step (at' 31 9 []) = .next t ∧ t.steps = 1 := ⟨_, rfl, rfl⟩
/-- A state with the invariant whose trace replays, in which a step is enabled (EveryStepKeepsTheInvariant,
EveryStepKeepsTheTraceReplaying, RunUsesUpTheBudget). -/
theorem test_meets_Inv : ∃ s t : State, s.Inv ∧ s.TraceReplays ∧ s.status = .running ∧ s.awaiting = false ∧
    s.replies = [] ∧ step s = .next t := by
  refine ⟨State.reset, _, ⟨Memory.wf_nil, ⟨?_, ?_, ?_, ?_, ?_⟩, ⟨rfl, rfl, ?_, ?_⟩⟩, List.IsChain.nil, rfl, rfl, rfl, rfl⟩
  all_goals simp [State.reset, Config.stepBudget]
theorem test_meets_RunEnds : Reply.abort ∉ [Reply.cont].take 32 ∧ ([Reply.abort][0]? = some Reply.abort ∧
    Reply.abort ∉ [Reply.abort].take 0) ∧ ((List.replicate 31 Reply.cont ++ [Reply.abort])[31]? = some Reply.abort ∧
    Reply.abort ∉ (List.replicate 31 Reply.cont ++ [Reply.abort]).take 31) := by decide
theorem test_meets_JumpToItself : (at' 31 4 [(31, 0x9F#8)]).status = .running ∧ (at' 31 4 [(31, 0x9F#8)]).awaiting = false ∧
    (at' 31 4 [(31, 0x9F#8)]).replies = [] ∧ (at' 31 4 [(31, 0x9F#8)]).steps < 32 ∧
    (at' 31 4 [(31, 0x9F#8)]).steps + 32 ≤ 32 ∧
    decode ((at' 31 4 [(31, 0x9F#8)]).mem.read 31) = .jmp 31 := by decide
theorem test_meets_EndedRun : ({ State.reset with status := .done } : State).status ≠ .running ∧
    ({ State.reset with status := .aborted } : State).status ≠ .running := by decide
theorem test_meets_Waiting : ({ State.reset with steps := 1, awaiting := true } : State).status = .running ∧
    ({ State.reset with steps := 1, awaiting := true } : State).awaiting = true := by decide
theorem test_meets_Observer : (∃ t, step State.reset = .next t) ∧
    ∃ u, step { State.reset with replies := [some .abort], trace := [] } = .next u := ⟨⟨_, rfl⟩, _, rfl⟩
theorem test_meets_OperandRequired : parseOperand ['3', '1'] = some 31 ∧ operandRequired (resolve ['A', 'D', 'D']) = true ∧
    operandRequired (resolve []) = false := by decide
theorem test_meets_Assembled : ∃ img, assemble [] = some img ∧ operandRequired (opcodeOf img[(31 : Addr).toNat]) = false :=
  ⟨_, rfl, by decide⟩
theorem test_meets_MalformedOperands : operandRequired (resolve ['A', 'D', 'D']) = true ∧
    parseOperand ['3', '2'] = none ∧ ('-' ∈ ['-', '1'] ∧ '-'.isDigit = false) ∧
    decimalFrom ['3', '2'] 0 = some 32 := by decide
theorem test_meets_HostCannotWriteInjectOrSkip : State.reset.status = .running ∧ State.reset.awaiting = false ∧
    ∃ t, step State.reset = .next t := ⟨rfl, rfl, _, rfl⟩
theorem test_meets_EndedRunCannotBeResumed : ({ State.reset with status := .aborted } : State).status ≠ .running ∧
    ∀ img, Action.host (.launch img) ∉ [Action.host (.answer (some .cont)), .core] := by
  refine ⟨by decide, fun img => by simp⟩
theorem test_meets_EverySession : State.reset.Inv ∧ ∃ t, session [.host (.answer none), .core] State.reset = .next t := by
  refine ⟨⟨Memory.wf_nil, ⟨?_, ?_, ?_, ?_, ?_⟩, ⟨rfl, rfl, ?_, ?_⟩⟩, _, rfl⟩
  all_goals simp [State.reset, Config.stepBudget]
theorem test_meets_PlacedWord : 255 < 256 ∧ (0 : Nat) < 256 := by decide

end Sys2Proof.Machine.Tests
end

namespace Sys2Proof.Machine

/-! ### The executing step: what `finish` leaves of the effect, and what `exec` does to memory -/

@[simp] theorem State.finish_pc (s : State) (i : Instr) : (s.finish i).pc = s.pc := by simp [State.finish]
@[simp] theorem State.finish_acc (s : State) (i : Instr) : (s.finish i).acc = s.acc := by simp [State.finish]
@[simp] theorem State.finish_mem (s : State) (i : Instr) : (s.finish i).mem = s.mem := by simp [State.finish]
@[simp] theorem State.finish_steps (s : State) (i : Instr) : (s.finish i).steps = s.steps + 1 := by
  simp [State.finish]
@[simp] theorem State.finish_trace (s : State) (i : Instr) : (s.finish i).trace = s.trace ++ [s.event i] := by
  simp [State.finish]

/-- In a state in which a step is enabled, a step is the effect of the decoded instruction and then `finish`. -/
theorem step_enabled {s t : State} (hr : s.status = .running) (ha : s.awaiting = false) (h : step s = .next t) :
    ∃ u, exec s.decoded s = .next u ∧ t = u.finish s.decoded := by
  rcases step_cases h with ⟨hended, _⟩ | ⟨_, hwait, _⟩ | ⟨_, _, hexec⟩
  · exact absurd hr hended
  · simp [ha] at hwait
  · exact hexec

theorem exec_keeps_mem_wf {i : Instr} {s t : State} (hm : s.mem.wf) (h : exec i s = .next t) : t.mem.wf := by
  rcases exec_mem_cases h with hsame | ⟨a, _, hwrite⟩
  · rwa [hsame]
  · rw [hwrite]; exact Memory.wf_write hm _ _

/-! ### The invariant, one part at a time -/

/-- A look for the answer to the event of some step of a run that is on leaves the run control consistent: an answer
ends the wait, and the run goes on only below the budget. -/
theorem takeReply_runConsistent {s : State} (hr : s.status = .running) (hpos : 0 < s.steps)
    (hle : s.steps ≤ Config.stepBudget) : s.takeReply.RunConsistent := by
  rcases s.takeReply_cases with ⟨_, habort⟩ | ⟨_, hnone⟩ | ⟨_, hbudget, hdone⟩ | ⟨_, hbudget, hcont⟩
  · rw [habort]; exact ⟨hle, by simp, by simp, by simp, fun _ => hpos⟩
  · rw [hnone]; exact ⟨hle, by simp [hr], by simp, fun _ => ⟨hr, hpos⟩, fun _ => hpos⟩
  · rw [hdone]; exact ⟨hle, fun _ => hbudget, by simp, by simp, by simp⟩
  · rw [hcont]; exact ⟨hle, by simp [hr], fun _ _ => lt_of_le_of_ne hle hbudget, by simp, fun _ => hpos⟩

/-- A look for an answer touches nothing the trace speaks of. -/
theorem takeReply_traceConsistent {s : State} (h : s.TraceConsistent) : s.takeReply.TraceConsistent := by
  obtain ⟨honePerStep, hnumbered, hsnapshots, hlastIsNow⟩ := h
  constructor <;> simpa

/-- Reporting the effect of an instruction adds the event numbered by the steps before it, a picture of the state
the effect left. -/
theorem report_traceConsistent {i : Instr} {s u : State} (hs : s.TraceConsistent) (hsteps : u.steps = s.steps)
    (htrace : u.trace = s.trace) (hm : u.mem.wf) (hlt : s.steps < Config.stepBudget) :
    (u.report i).TraceConsistent := by
  obtain ⟨honePerStep, hnumbered, hsnapshots, hlastIsNow⟩ := hs
  have hindex : (BitVec.ofNat 5 s.steps).toNat = s.steps := Nat.mod_eq_of_lt hlt
  constructor
  case onePerStep => simp [htrace, hsteps, honePerStep]
  case numbered => simp [htrace, hsteps, hnumbered, honePerStep, hindex, List.range_succ]
  case snapshots =>
    intro e he
    rw [State.report_trace, htrace, List.mem_append, List.mem_singleton] at he
    rcases he with hold | rfl
    · exact hsnapshots e hold
    · exact hm
  case lastIsNow =>
    intro e he
    rw [State.report_trace, List.getLast?_concat, Option.some_inj] at he
    subst he
    exact ⟨rfl, rfl, rfl⟩

/-- A look for the awaited answer keeps the invariant. -/
theorem takeReply_keeps_inv {s : State} (h : s.Inv) (ha : s.awaiting = true) : s.takeReply.Inv := by
  obtain ⟨hr, hpos⟩ := h.run.awaitingRuns ha
  exact ⟨by simpa using h.memory, takeReply_runConsistent hr hpos h.run.atMostBudget,
    takeReply_traceConsistent h.trace⟩

/-- The effect of an instruction, its event and the look for the answer keep the invariant. -/
theorem exec_finish_keeps_inv {i : Instr} {s u : State} (h : s.Inv) (hr : s.status = .running)
    (ha : s.awaiting = false) (hu : exec i s = .next u) : (u.finish i).Inv := by
  obtain ⟨hsteps, hstatus, _, _, htrace⟩ := exec_keeps_run hu
  have hm : u.mem.wf := exec_keeps_mem_wf h.memory hu
  have hlt : s.steps < Config.stepBudget := h.run.enabledBelow hr ha
  refine ⟨by simpa using hm, takeReply_runConsistent ?running ?counted ?withinBudget,
    takeReply_traceConsistent (report_traceConsistent h.trace hsteps htrace hm hlt)⟩
  case running => simp [hstatus, hr]
  case counted => simp
  case withinBudget => simpa [hsteps] using hlt

/-- Settles O39: of the three things a step can do, an ended run stays as it is, and a look for an answer and an
executed instruction each keep the invariant. -/
theorem everyStepKeepsTheInvariant : Obligations.EveryStepKeepsTheInvariant := by
  intro s t hinv h
  rcases step_cases h with ⟨_, rfl⟩ | ⟨_, ha, rfl⟩ | ⟨hr, ha, u, hu, rfl⟩
  · exact hinv
  · exact takeReply_keeps_inv hinv ha
  · exact exec_finish_keeps_inv hinv hr ha hu

/-- A state that differs from reset only in a memory in canonical form and in the answers to come has the
invariant: nothing is counted, awaited or traced yet. -/
theorem inv_of_reset_with {m : Memory} (hm : m.wf) (rs : List (Option Reply)) :
    State.Inv { State.reset with mem := m, replies := rs } := by
  refine ⟨hm, ?run, ?trace⟩ <;> constructor <;> simp [State.reset, Config.stepBudget]

/-- Settles O37: reset and every launch are reset with a canonical memory and some answers to come. -/
theorem invariantHoldsAtReset : Obligations.InvariantHoldsAtReset :=
  ⟨inv_of_reset_with Memory.wf_nil [], fun img rs => inv_of_reset_with (Memory.wf_ofImage img) rs⟩

/-! ### The zero flag -/

theorem zeroFlag_iff (a : Word) : zeroFlag a = true ↔ a = 0 := by simp [zeroFlag]

/-- `Z` is the NOR of the eight bits (R14): a word is 0 exactly when none of its bits is set. -/
theorem zeroFlag_eq_nor (a : Word) : zeroFlag a = !(a.getLsbD 0 || a.getLsbD 1 || a.getLsbD 2 || a.getLsbD 3 ||
    a.getLsbD 4 || a.getLsbD 5 || a.getLsbD 6 || a.getLsbD 7) := by
  rw [Bool.eq_iff_iff, zeroFlag_iff]
  constructor
  · rintro rfl; simp
  · intro hbits
    simp only [Bool.not_eq_true', Bool.or_eq_false_iff] at hbits
    have hclear : ∀ j < 8, a.getLsbD j = false := by intro j hj; interval_cases j <;> simp only [hbits]
    exact BitVec.eq_of_getLsbD_eq fun j hj => (hclear j hj).trans BitVec.getLsbD_zero.symm

/-- STORE, JMP and BNZ do not write the accumulator. -/
theorem exec_keeps_acc {a : Operand} {i : Instr} {s t : State} (hi : i ∈ [Instr.store a, .jmp a, .bnz a])
    (h : exec i s = .next t) : t.acc = s.acc := by
  simp only [List.mem_cons, List.not_mem_nil, or_false] at hi
  rcases hi with rfl | rfl | rfl <;> cases h <;> simp

theorem exec_bnz_taken (a : Operand) {s : State} (hz : s.z = false) : exec (.bnz a) s = .next { s with pc := a } := by
  simp [exec, execBnz, State.setPc, pcMux, target, hz]

/-- Settles O17: `Z` is a function of the accumulator, so what keeps the accumulator keeps `Z`. -/
theorem zeroFlagIsAFunctionOfTheAccumulator : Obligations.ZeroFlagIsAFunctionOfTheAccumulator := by
  refine ⟨fun s => ⟨zeroFlag_iff s.acc, zeroFlag_eq_nor s.acc⟩, fun s t hacc => congrArg zeroFlag hacc, ?keepers,
    fun _ _ _ _ _ _ => rfl, fun a s hz => exec_bnz_taken a hz, (zeroFlag_iff _).mpr rfl⟩
  intro a i s t hi h
  have hacc : t.acc = s.acc := exec_keeps_acc hi h
  exact ⟨hacc, congrArg zeroFlag hacc⟩

/-! ### The step counter -/

/-- No instruction reads or writes the step count: with another count it completes with the same effect. -/
theorem exec_with_steps (i : Instr) (s : State) (n : Nat) :
    ∃ t, exec i s = .next t ∧ exec i { s with steps := n } = .next { t with steps := n } := by
  cases i <;> exact ⟨_, rfl, rfl⟩

theorem step_steps_le {s t : State} (h : step s = .next t) : s.steps ≤ t.steps := by
  rcases step_cases h with ⟨_, rfl⟩ | ⟨_, _, rfl⟩ | ⟨_, _, u, hu, rfl⟩
  · exact le_rfl
  · simp
  · obtain ⟨hsteps, _⟩ := exec_keeps_run hu
    simp [hsteps]

/-- Settles O31: only `finish` counts, once for each instruction executed, after the event has taken the count as its
index. -/
theorem stepCounterCountsEveryStep : Obligations.StepCounterCountsEveryStep := by
  refine ⟨rfl, fun s t hr ha h => ?counts, fun s t => step_steps_le, fun i s n => ?unseen⟩
  case counts =>
    obtain ⟨u, hu, rfl⟩ := step_enabled hr ha h
    obtain ⟨hsteps, _, _, _, htrace⟩ := exec_keeps_run hu
    exact ⟨by simp [hsteps], u.event s.decoded, by simp [htrace], by simp [hsteps]⟩
  case unseen =>
    obtain ⟨t, ht, htn⟩ := exec_with_steps i s n
    obtain ⟨hsteps, _⟩ := exec_keeps_run ht
    exact ⟨t, ht, hsteps, htn⟩

/-! ### The ends of a run -/

theorem step_of_ended {s : State} (h : s.status ≠ .running) : step s = .next s := by
  unfold step
  cases hs : s.status with
  | running => exact absurd hs h
  | done => rfl
  | aborted => rfl

/-- Settles O44, by induction on the number of steps: each of them answers the same state. -/
theorem endedRunStaysPut : Obligations.EndedRunStaysPut := by
  intro s n h
  induction n with
  | zero => rfl
  | succ n ih => rw [run_of_step (step_of_ended h), ih]

/-- Settles O35: a reset in any state is the launch of the image, whose memory reads as the image. -/
theorem launchStartsAFreshRun : Obligations.LaunchStartsAFreshRun := by
  intro img rs s
  exact ⟨rfl, (zeroFlag_iff _).mpr rfl, rfl, Memory.read_ofImage img, rfl, rfl, rfl, fun _ => rfl⟩

end Sys2Proof.Machine

namespace Sys2Proof.Machine

/-! ### Canonical memories and their reads -/

/-- In a memory whose addresses rise, the first entry for an address is the only one, so it is what is read. -/
theorem Memory.wordAt_of_mem {m : Memory} (h : m.Rising) {c : Host.Cell} (hc : c ∈ m) : m.wordAt c.1 = c.2 := by
  induction m with
  | nil => cases hc
  | cons d m ih =>
    obtain ⟨hd, hm⟩ := List.pairwise_cons.mp h
    rw [Memory.wordAt]
    rcases List.mem_cons.mp hc with rfl | hc
    · exact if_pos rfl
    · rw [if_neg (hd c hc).ne, ih hm hc]

theorem Memory.mem_of_wordAt_ne {m : Memory} {a : Nat} (h : m.wordAt a ≠ Config.unlistedWord) :
    (a, m.wordAt a) ∈ m := by
  induction m with
  | nil => exact absurd rfl h
  | cons d m ih =>
    obtain ⟨x, v⟩ := d
    rw [Memory.wordAt] at h ⊢
    split at h
    · rename_i hx; simp [hx]
    · rename_i hx; simp [hx, ih h]

/-- A canonical memory lists nothing that a memory with the same reads does not list: an entry is read at its
address, and differs from what an unlisted address reads as. -/
theorem Memory.subset_of_read_eq {m m' : Memory} (h : m.wf) (hread : ∀ a : Addr, m.read a = m'.read a) :
    m ⊆ m' := by
  obtain ⟨hrange, hrising, hlisted⟩ := h
  intro c hc
  have haddr : (BitVec.ofNat 5 c.1).toNat = c.1 := Nat.mod_eq_of_lt (hrange c hc)
  have hword : m'.wordAt c.1 = c.2 := by
    have hsame := hread (BitVec.ofNat 5 c.1)
    rw [Memory.read, Memory.read, haddr, Memory.wordAt_of_mem hrising hc] at hsame
    exact hsame.symm
  have hmem := Memory.mem_of_wordAt_ne (hword ▸ hlisted c hc)
  rwa [hword] at hmem

/-- Settles O28: each lists the entries of the other, and lists whose addresses rise and that have the same entries
are equal. -/
theorem canonicalMemoriesAreDeterminedByTheirReads : Obligations.CanonicalMemoriesAreDeterminedByTheirReads := by
  intro m m' h h' hread
  have hasymm : Std.Asymm (fun c d : Host.Cell => c.1 < d.1) := ⟨fun _ _ => Nat.lt_asymm⟩
  have hsub : m ⊆ m' := Memory.subset_of_read_eq h hread
  have hsub' : m' ⊆ m := Memory.subset_of_read_eq h' fun a => (hread a).symm
  obtain ⟨_, hrising, _⟩ := h
  obtain ⟨_, hrising', _⟩ := h'
  exact hsub.antisymm_of_pairwise hrising hrising' hsub'

/-! ### STORE, LOAD and what a step makes of memory -/

/-- STORE in every state: one write of the accumulator, then the sequential address (R111). -/
theorem exec_store (a : Operand) (s : State) :
    exec (.store a) s = .next (s.memWrite (dataAddress a) s.acc).advance := rfl

/-- LOAD in every state: one read into the accumulator, then the sequential address (R110). -/
theorem exec_load (a : Operand) (s : State) :
    exec (.load a) s = .next (s.setAcc (s.memRead (dataAddress a))).advance := rfl

/-- What the effect of an instruction leaves at each address: the accumulator where it stores, else the word that
stood there. STORE keeps the accumulator, so the one after it, which the event reports, is the one stored. -/
theorem exec_mem_read {i : Instr} {s t : State} (h : exec i s = .next t) (b : Addr) :
    t.mem.read b = if i.opcode = .store ∧ i.operand = b then t.acc else s.mem.read b := by
  cases i with
  | store a => cases h; simp [Memory.read_write, dataAddress, Instr.opcode, Instr.operand, eq_comm]
  | clear | inc | add | dec | jmp | bnz | load => cases h; simp [Instr.opcode]

/-- In a state in which a step is enabled, `finish` follows the effect of the decoded instruction. -/
theorem step_of_exec {s u : State} (hr : s.status = .running) (ha : s.awaiting = false)
    (h : exec s.decoded s = .next u) : step s = .next (u.finish s.decoded) := by
  simp [step, hr, ha, h]

/-- A step that executes a STORE: its write, the sequential address, then the event, the count and the observer. -/
theorem step_store {a : Operand} {s : State} (hr : s.status = .running) (ha : s.awaiting = false)
    (hi : s.decoded = .store a) : step s = .next ((s.memWrite (dataAddress a) s.acc).advance.finish (.store a)) := by
  rw [step_of_exec hr ha (hi ▸ exec_store a s), hi]

/-- Settles O23: a STORE completes in every state, and its memory is one write of the accumulator. -/
theorem storeStepWritesExactlyOneWord : Obligations.StoreStepWritesExactlyOneWord := by
  intro a s hr ha hi
  exact ⟨_, step_store hr ha hi, fun b => by simp [Memory.read_write, dataAddress]⟩

/-- Settles O27: the next word fetched is read at the sequential address, from the memory after the write. -/
theorem nextFetchSeesTheStore : Obligations.NextFetchSeesTheStore := by
  intro a s t hr ha hi h
  obtain rfl : (s.memWrite (dataAddress a) s.acc).advance.finish (.store a) = t := by
    simpa [step_store hr ha hi] using h
  refine ⟨?next, ?own⟩
  case next =>
    rw [← apply_ite decode]
    simp [State.decoded, State.fetch, State.memRead, Memory.read_write, dataAddress, nextAddr, eq_comm]
  case own =>
    rintro rfl
    exact ⟨by simp [Memory.read_write, dataAddress], by simp [nextAddr], by simp⟩

/-! ### The trace explains the memory -/

theorem latestStore_concat (trace : List StepEvent) (e : StepEvent) (a : Addr) (w : Word) :
    latestStore (trace ++ [e]) a w =
      if e.opcode = .store ∧ e.operand = a then e.acc else latestStore trace a w := by
  simp [latestStore]

theorem launch_traceExplains (img : Image) (rs : List (Option Reply)) : (State.launch img rs).TraceExplains img :=
  fun a => Memory.read_ofImage img a

/-- A look for an answer touches neither memory nor the trace. -/
theorem takeReply_traceExplains {img : Image} {s : State} (h : s.TraceExplains img) :
    s.takeReply.TraceExplains img := by
  intro a
  simpa using h a

/-- An executed instruction keeps it: where it stores, its event is the latest STORE to that address; every other
word and the latest STORE to it stay. -/
theorem exec_finish_traceExplains {img : Image} {i : Instr} {s u : State} (h : s.TraceExplains img)
    (hu : exec i s = .next u) : (u.finish i).TraceExplains img := by
  obtain ⟨_, _, _, _, htrace⟩ := exec_keeps_run hu
  intro a
  calc (u.finish i).mem.read a
      = if i.opcode = .store ∧ i.operand = a then u.acc else s.mem.read a := by
        rw [State.finish_mem, exec_mem_read hu]
    _ = if i.opcode = .store ∧ i.operand = a then u.acc else latestStore s.trace a img[a.toNat] := by rw [h a]
    _ = latestStore (u.finish i).trace a img[a.toNat] := by
        rw [State.finish_trace, htrace, latestStore_concat]; rfl

/-- Settles O25: of the three things a step can do, an ended run stays as it is, and a look for an answer and an
executed instruction each keep the trace explaining the memory. -/
theorem everyStepKeepsTraceExplainsMemory : Obligations.EveryStepKeepsTraceExplainsMemory := by
  intro img s t hs h
  rcases step_cases h with ⟨_, rfl⟩ | ⟨_, _, rfl⟩ | ⟨_, _, u, hu, rfl⟩
  · exact hs
  · exact takeReply_traceExplains hs
  · exact exec_finish_traceExplains hs hu

/-- Settles O24: a launch has a trace that explains its memory, and every step keeps it. A LOAD leaves memory, so the
same LOAD again reads the same word. -/
theorem readReturnsTheLatestStore : Obligations.ReadReturnsTheLatestStore := by
  refine ⟨fun img rs n t a h => ?reads, fun a s => ⟨_, _, exec_load a s, rfl, rfl, exec_load a _, rfl⟩⟩
  case reads =>
    exact run_keeps (everyStepKeepsTraceExplainsMemory img) (launch_traceExplains img rs) h a

end Sys2Proof.Machine

namespace Sys2Proof

/-! ### The fields of instructions and words -/

@[simp] theorem Instr.opcode_ofFields (o : Opcode) (k : Operand) : (Instr.ofFields o k).opcode = o := by
  cases o <;> rfl

@[simp] theorem Instr.operand_ofFields (o : Opcode) (k : Operand) : (Instr.ofFields o k).operand = k := by
  cases o <;> rfl

@[simp] theorem Instr.ofFields_opcode_operand (i : Instr) : Instr.ofFields i.opcode i.operand = i := by
  cases i <;> rfl

@[simp] theorem opcode_decode (w : Word) : (decode w).opcode = opcodeOf w := Instr.opcode_ofFields _ _

@[simp] theorem operand_decode (w : Word) : (decode w).operand = operandOf w := Instr.operand_ofFields _ _

@[simp] theorem opcodeOf_encodeFields (o : Opcode) (k : Operand) : opcodeOf (encodeFields o k) = o :=
  (Laws.EncodedFields.fields_encodeFields o k).1

@[simp] theorem operandOf_encodeFields (o : Opcode) (k : Operand) : operandOf (encodeFields o k) = k :=
  (Laws.EncodedFields.fields_encodeFields o k).2

/-- The eight rows of R54's table: the number of the opcode is the three bits it is looked up by. -/
theorem bits_opcodeOf_eq_append (w : Word) : (opcodeOf w).bits =
    BitVec.ofBool (w.getLsbD 7) ++ BitVec.ofBool (w.getLsbD 6) ++ BitVec.ofBool (w.getLsbD 5) := by
  unfold opcodeOf
  cases w.getLsbD 7 <;> cases w.getLsbD 6 <;> cases w.getLsbD 5 <;> rfl

theorem bits_opcodeOf (w : Word) : (opcodeOf w).bits = w.extractLsb' 5 3 := by
  rw [bits_opcodeOf_eq_append]
  apply BitVec.eq_of_getLsbD_eq
  intro j hj
  rw [BitVec.getLsbD_append, BitVec.getLsbD_append]
  interval_cases j <;> simp

/-- Opcodes with one number are one opcode: their words with operand 0 are the same. -/
theorem Opcode.bits_injective {o o' : Opcode} (h : o.bits = o'.bits) : o = o' := by
  calc o = opcodeOf (encodeFields o 0) := (opcodeOf_encodeFields o 0).symm
    _ = opcodeOf (encodeFields o' 0) := by rw [encodeFields, h, encodeFields]
    _ = o' := opcodeOf_encodeFields o' 0

theorem toNat_bits_opcodeOf (w : Word) : (opcodeOf w).bits.toNat = w.toNat / 32 := by
  rw [bits_opcodeOf, BitVec.extractLsb'_toNat, Nat.shiftRight_eq_div_pow]
  omega

theorem toNat_operandOf (w : Word) : (operandOf w).toNat = w.toNat % 32 := by
  simp [operandOf]

/-- The arithmetic reading of R52: the opcode's number times 32, plus the operand. -/
theorem toNat_encodeFields (o : Opcode) (k : Operand) : (encodeFields o k).toNat = o.bits.toNat * 32 + k.toNat := by
  rw [encodeFields, BitVec.toNat_append, ← Nat.shiftLeft_add_eq_or_of_lt k.isLt, Nat.shiftLeft_eq]

theorem decode_encodeFields (o : Opcode) (k : Operand) : decode (encodeFields o k) = Instr.ofFields o k := by
  simp [decode]

theorem decode_encode (i : Instr) : decode (encode i) = i := by
  rw [encode, decode_encodeFields, Instr.ofFields_opcode_operand]

/-- A word is its three high bits above its five low bits. -/
theorem encodeFields_opcodeOf_operandOf (w : Word) : encodeFields (opcodeOf w) (operandOf w) = w := by
  apply BitVec.eq_of_toNat_eq
  rw [toNat_encodeFields, toNat_bits_opcodeOf, toNat_operandOf, Nat.div_add_mod']

theorem encode_decode (w : Word) : encode (decode w) = w := by
  rw [encode, opcode_decode, operand_decode, encodeFields_opcodeOf_operandOf]

/-- Settles O3: an instruction and a word are each put together again from their two fields. -/
theorem encodeAndDecodeAreInverse : Obligations.EncodeAndDecodeAreInverse :=
  ⟨fun i _ => ⟨decode_encode i, toNat_encodeFields i.opcode i.operand⟩, encode_decode,
    Laws.EncodedFields.fields_encodeFields⟩

/-- Settles O1: the table of opcodes reads off the three high bits, and dividing by 32 or shifting gives the same
bits. -/
theorem decoderSplitsEveryWord : Obligations.DecoderSplitsEveryWord := by
  intro w
  rw [opcode_decode, operand_decode]
  refine ⟨toNat_bits_opcodeOf w, toNat_operandOf w, ?shift, ?mask, by decide, by decide⟩
  case shift =>
    rw [bits_opcodeOf]
    apply BitVec.eq_of_toNat_eq
    simp
  case mask =>
    apply BitVec.eq_of_toNat_eq
    have hmask : w.toNat &&& 31 = w.toNat % 32 := Nat.and_two_pow_sub_one_eq_mod w.toNat 5
    rw [toNat_operandOf, BitVec.toNat_setWidth, BitVec.toNat_and, BitVec.toNat_ofNat, hmask, Nat.mod_mod]

/-! ### The words of an opcode -/

theorem ofNat_eq_encodeFields (o : Opcode) (k : Operand) :
    BitVec.ofNat 8 (o.bits.toNat * 32 + k.toNat) = encodeFields o k := by
  rw [← toNat_encodeFields, BitVec.ofNat_toNat, BitVec.setWidth_eq]

theorem decode_ofNat (o : Opcode) (k : Operand) :
    decode (BitVec.ofNat 8 (o.bits.toNat * 32 + k.toNat)) = Instr.ofFields o k := by
  rw [ofNat_eq_encodeFields, decode_encodeFields]

/-- Settles O2: each of the eight words is the encoding of its opcode and `k`. -/
theorem opcodesOwnTheirWords : Obligations.OpcodesOwnTheirWords := fun k =>
  ⟨decode_ofNat .clear k, decode_ofNat .inc k, decode_ofNat .add k, decode_ofNat .dec k,
    decode_ofNat .jmp k, decode_ofNat .bnz k, decode_ofNat .load k, decode_ofNat .store k⟩

/-- A word in the range of an opcode decodes to that opcode's instruction, with the word's operand bits (R54). -/
theorem decode_of_div {w : Word} {o : Opcode} (h : w.toNat / 32 = o.bits.toNat) :
    decode w = Instr.ofFields o (operandOf w) := by
  have hop : opcodeOf w = o :=
    Opcode.bits_injective (BitVec.eq_of_toNat_eq ((toNat_bits_opcodeOf w).trans h))
  rw [decode, hop]

end Sys2Proof

namespace Sys2Proof.Machine

/-- CLEAR, INC and DEC use an ALU operation that does not look at the operand. -/
theorem aluStep_ignores_operand {op : AluOp} (hop : op ≠ .add) (j k : Operand) (s : State) :
    s.aluStep op j = s.aluStep op k := by
  cases op with
  | add => exact absurd rfl hop
  | clr | inc | dec => rfl

/-- Settles O4: three ALU operations ignore the operand, and the ranges are those of the opcodes 0, 1 and 3. -/
theorem ignoredOperandBitsHaveNoEffect : Obligations.IgnoredOperandBitsHaveNoEffect := by
  refine ⟨fun j k s => ⟨?_, ?_, ?_⟩, fun w => ⟨?clear, ?inc, ?dec⟩, State.event_operand⟩
  · exact congrArg Host.Outcome.next (aluStep_ignores_operand (op := .clr) (by decide) j k s)
  · exact congrArg Host.Outcome.next (aluStep_ignores_operand (op := .inc) (by decide) j k s)
  · exact congrArg Host.Outcome.next (aluStep_ignores_operand (op := .dec) (by decide) j k s)
  case clear =>
    intro hle
    exact decode_of_div (o := .clear) (show w.toNat / 32 = 0 by omega)
  case inc =>
    intro hge hle
    exact decode_of_div (o := .inc) (show w.toNat / 32 = 1 by omega)
  case dec =>
    intro hge hle
    exact decode_of_div (o := .dec) (show w.toNat / 32 = 3 by omega)

/-! ### The mnemonic resolver -/

/-- The tokens listed for each opcode (R61); CLEAR has none and is the default. -/
def spellings : Opcode → List (List Char)
  | .clear => []
  | .inc   => ["INC1".toList, "INC".toList]
  | .add   => ["ADD".toList]
  | .dec   => ["DEC1".toList, "DEC".toList]
  | .jmp   => ["JMP".toList]
  | .bnz   => ["BUZ".toList, "BNZ".toList, "BZC".toList, "BNE".toList]
  | .load  => ["LOAD".toList]
  | .store => ["STORE".toList]

theorem resolve_of_mem_spellings (o : Opcode) : ∀ tok ∈ spellings o, resolve tok = o := by
  cases o <;> decide

/-- Every branch of the resolver but the last tests for the spellings of the opcode it answers. -/
theorem resolve_cases (tok : List Char) : resolve tok = .clear ∨ tok ∈ spellings (resolve tok) := by
  unfold resolve
  split_ifs with hinc hadd hdec hjmp hbnz hload hstore
  case neg => exact .inl rfl
  all_goals exact .inr (by simpa [spellings])

theorem resolve_eq_iff {o : Opcode} (ho : o ≠ .clear) (tok : List Char) : resolve tok = o ↔ tok ∈ spellings o := by
  constructor
  · rintro rfl
    exact (resolve_cases tok).resolve_left ho
  · exact resolve_of_mem_spellings o tok

/-- Settles O48: each opcode but CLEAR is answered exactly for its listed tokens. -/
theorem mnemonicResolver : Obligations.MnemonicResolver := by
  refine ⟨fun tok => ⟨resolve_eq_iff (by decide) tok, ?add, resolve_eq_iff (by decide) tok, ?jmp,
    resolve_eq_iff (by decide) tok, ?load, ?store⟩, by decide, by decide⟩
  all_goals exact (resolve_eq_iff (by decide) tok).trans List.mem_singleton

/-! ### Operand tokens -/

/-- A token is read to its end exactly when all its characters are digits, and is then the number they write. -/
theorem decimalFrom_eq (k : List Char) (acc : Nat) :
    decimalFrom k acc = if k.all Char.isDigit then some (Nat.ofDigitChars 10 k acc) else none := by
  induction k generalizing acc with
  | nil => rfl
  | cons c k ih =>
    have hdigit : ('0' ≤ c ∧ c ≤ '9') ↔ c.isDigit = true := by simp [Char.isDigit, Char.le_def]
    by_cases hc : c.isDigit = true
    · simp [decimalFrom, hdigit, hc, ih, Nat.ofDigitChars_cons]
    · simp [decimalFrom, hdigit, hc]

theorem decimalFrom_toDigits (n : Nat) : decimalFrom (Nat.toDigits 10 n) 0 = some n := by
  have hall : (Nat.toDigits 10 n).all Char.isDigit = true :=
    List.all_eq_true.mpr fun _ => Nat.isDigit_of_mem_toDigits (by decide) (by decide)
  rw [decimalFrom_eq, if_pos hall, Nat.ofDigitChars_toDigits (by decide) (by decide)]

theorem parseOperand_of_decimalFrom_none {k : List Char} (h : decimalFrom k 0 = none) : parseOperand k = none := by
  simp [parseOperand, h]

/-- A token that writes a number is an operand exactly when the number is below 32. -/
theorem parseOperand_of_decimalFrom {k : List Char} {n : Nat} (hk : k ≠ []) (h : decimalFrom k 0 = some n) :
    parseOperand k = if n < 32 then some (BitVec.ofNat 5 n) else none := by
  simp [parseOperand, h, hk]

theorem parseOperand_of_not_digit {k : List Char} {c : Char} (hc : c ∈ k) (hd : c.isDigit = false) :
    parseOperand k = none := by
  have hall : ¬ k.all Char.isDigit = true := fun h => by simp [List.all_eq_true.mp h c hc] at hd
  exact parseOperand_of_decimalFrom_none (by rw [decimalFrom_eq, if_neg hall])

theorem parseOperand_of_ge {k : List Char} {n : Nat} (h : decimalFrom k 0 = some n) (hn : 32 ≤ n) :
    parseOperand k = none := by
  have hk : k ≠ [] := by rintro rfl; cases h; omega
  rw [parseOperand_of_decimalFrom hk h, if_neg (by omega)]

theorem parseOperand_toDigits (v : Operand) : parseOperand (Nat.toDigits 10 v.toNat) = some v := by
  rw [parseOperand_of_decimalFrom Nat.toDigits_ne_nil (decimalFrom_toDigits _), if_pos v.isLt,
    BitVec.ofNat_toNat, BitVec.setWidth_eq]

/-! ### One instruction of a text -/

section
variable (n : Nat) {tok k : List Char} (rest : List (List Char))

theorem assembleTokens_operand {v : Operand} (h : operandRequired (resolve tok) = true)
    (hk : parseOperand k = some v) : assembleTokens (n + 1) (tok :: k :: rest) =
      (assembleTokens n rest).map (encodeFields (resolve tok) v :: ·) := by
  simp [assembleTokens, h, hk]

theorem assembleTokens_no_operand (h : operandRequired (resolve tok) = false) :
    assembleTokens (n + 1) (tok :: rest) = (assembleTokens n rest).map (encodeFields (resolve tok) 0 :: ·) := by
  simp [assembleTokens, h]

theorem assembleTokens_missing (h : operandRequired (resolve tok) = true) :
    assembleTokens (n + 1) [tok] = none := by
  simp [assembleTokens, h]

theorem assembleTokens_malformed (h : operandRequired (resolve tok) = true) (hk : parseOperand k = none) :
    assembleTokens (n + 1) (tok :: k :: rest) = none := by
  simp [assembleTokens, h, hk]

end

theorem operandRequired_eq_false_iff (o : Opcode) :
    operandRequired o = false ↔ o ∈ [Opcode.clear, .inc, .dec] := by
  cases o <;> decide

/-- Settles O49: the two ways in which an instruction of a text is accepted. -/
theorem operandRequiredForFiveOpcodes : Obligations.OperandRequiredForFiveOpcodes :=
  ⟨operandRequired_eq_false_iff, fun n _ _ rest _ hk h => assembleTokens_operand n rest h hk,
    fun n _ rest h => assembleTokens_no_operand n rest h⟩

/-- Settles O51: the two ways in which an instruction of a text is rejected, and what an operand token is. -/
theorem malformedOperandsRejectTheText : Obligations.MalformedOperandsRejectTheText :=
  ⟨fun n _ _ rest h => ⟨assembleTokens_missing n h, assembleTokens_malformed n rest h⟩, rfl,
    fun _ _ => parseOperand_of_not_digit, fun _ _ => parseOperand_of_ge, parseOperand_toDigits⟩

/-! ### Assembled words are canonical -/

/-- Operand bits are 0 where the opcode ignores them (D11). -/
def CanonicalWord (w : Word) : Prop := operandRequired (opcodeOf w) = false → operandOf w = 0

theorem canonicalWord_zero : CanonicalWord 0 := fun _ => rfl

/-- A text that begins with an instruction and assembles gives a canonical word, and the words of the rest. -/
theorem assembleTokens_cons {n : Nat} {tok : List Char} {rest : List (List Char)} {ws : List Word}
    (h : assembleTokens (n + 1) (tok :: rest) = some ws) :
    ∃ w rest' ws', ws = w :: ws' ∧ CanonicalWord w ∧ assembleTokens n rest' = some ws' := by
  cases hreq : operandRequired (resolve tok) with
  | false =>
    rw [assembleTokens_no_operand n rest hreq] at h
    obtain ⟨ws', hws', rfl⟩ := Option.map_eq_some_iff.mp h
    exact ⟨_, rest, ws', rfl, fun _ => operandOf_encodeFields _ 0, hws'⟩
  | true =>
    cases rest with
    | nil => simp [assembleTokens_missing n hreq] at h
    | cons k rest =>
      cases hk : parseOperand k with
      | none => simp [assembleTokens_malformed n rest hreq hk] at h
      | some v =>
        rw [assembleTokens_operand n rest hreq hk] at h
        obtain ⟨ws', hws', rfl⟩ := Option.map_eq_some_iff.mp h
        refine ⟨_, rest, ws', rfl, fun hfalse => ?_, hws'⟩
        simp [hreq] at hfalse

theorem assembleTokens_canonical {n : Nat} {toks : List (List Char)} {ws : List Word}
    (h : assembleTokens n toks = some ws) : ∀ w ∈ ws, CanonicalWord w := by
  induction n generalizing toks ws with
  | zero => cases h; simp
  | succ n ih =>
    cases toks with
    | nil => cases h; simp
    | cons tok rest =>
      obtain ⟨w, rest', ws', rfl, hw, hrest⟩ := assembleTokens_cons h
      exact List.forall_mem_cons.mpr ⟨hw, ih hrest⟩

/-- The words of an image are those it is made from, and `0x00` after them (R60). -/
theorem Image.getElem_ofWords (ws : List Word) {a : Nat} (ha : a < 32) :
    (Image.ofWords ws)[a] = 0 ∨ (Image.ofWords ws)[a] ∈ ws := by
  rw [Image.ofWords, Vector.getElem_ofFn]
  by_cases hlt : a < ws.length
  · exact .inr (by simp [List.getElem?_eq_getElem hlt])
  · exact .inl (List.getD_eq_default ws 0 (Nat.le_of_not_lt hlt))

/-- Settles O50: each word of the image is `0x00` or was assembled from an instruction of the text. -/
theorem assembledWordsAreCanonical : Obligations.AssembledWordsAreCanonical := by
  intro text img a h
  obtain ⟨ws, hws, rfl⟩ := Option.map_eq_some_iff.mp h
  rcases Image.getElem_ofWords ws a.isLt with hzero | hmem
  · rw [hzero]; exact canonicalWord_zero
  · exact assembleTokens_canonical hws _ hmem

end Sys2Proof.Machine

namespace Sys2Proof.Machine

/-! ### What an instruction sees -/

theorem exec_completes (i : Instr) (s : State) : ∃ t, exec i s = .next t := by
  cases i <;> exact ⟨_, rfl⟩

/-- An instruction sees the accumulator, the program counter and memory only: with these three alike it does the
same in any state (R74, R84). -/
theorem exec_sees_core {i : Instr} {s t : State} (h : exec i s = .next t) (s' : State) :
    exec i { s' with acc := s.acc, pc := s.pc, mem := s.mem } =
      .next { s' with acc := t.acc, pc := t.pc, mem := t.mem } := by
  cases i <;> cases h <;> rfl

/-! ### The trace replays -/

/-- The last event of the trace has the index of the last step counted. -/
theorem State.TraceConsistent.index_last {s : State} (h : s.TraceConsistent) {e : StepEvent}
    (he : s.trace.getLast? = some e) : e.index.toNat + 1 = s.steps := by
  obtain ⟨honePerStep, hnumbered, _, _⟩ := h
  have hlast : (s.trace.map fun e => e.index.toNat).getLast? = some e.index.toNat := by simp [he]
  rw [hnumbered, honePerStep, List.getLast?_range] at hlast
  split at hlast
  · cases hlast
  · rw [Option.some_inj] at hlast; omega

/-- The event of an executed instruction follows an event that reports the state before: the instruction stands in
the memory of that event, and sees nothing else of it. -/
theorem event_follows {s u : State} {e : StepEvent} (hu : exec s.decoded s = .next u)
    (hindex : e.index.toNat + 1 = s.steps) (hacc : e.acc = s.acc) (hpc : e.pc = s.pc) (hmem : e.mem = s.mem) :
    e.Follows (u.event s.decoded) := by
  obtain ⟨hsteps, _⟩ := exec_keeps_run hu
  have hfetch : e.mem.read e.pc = s.fetch := by rw [hmem, hpc]; rfl
  rw [StepEvent.Follows, hfetch, hacc, hpc, hmem]
  refine ⟨?index, opcode_decode _, operand_decode _, _, exec_sees_core hu State.reset, rfl, rfl, rfl⟩
  case index =>
    rw [State.event_index, hsteps, ← hindex, BitVec.ofNat_add, BitVec.ofNat_toNat, BitVec.setWidth_eq]
    rfl

/-- Settles O40: only an executed instruction adds an event, and by the invariant the event before it reports the
state the instruction was executed in. -/
theorem everyStepKeepsTheTraceReplaying : Obligations.EveryStepKeepsTheTraceReplaying := by
  intro s t hinv hs h
  rw [State.TraceReplays] at hs ⊢
  rcases step_cases h with ⟨_, rfl⟩ | ⟨_, _, rfl⟩ | ⟨_, _, u, hu, rfl⟩
  · exact hs
  · rwa [State.takeReply_trace]
  · obtain ⟨_, _, _, _, htrace⟩ := exec_keeps_run hu
    rw [State.finish_trace, htrace, List.isChain_append]
    refine ⟨hs, List.IsChain.singleton _, fun e he e' he' => ?follows⟩
    case follows =>
      obtain rfl : u.event s.decoded = e' := by simpa using he'
      obtain ⟨hacc, hpc, hmem⟩ := hinv.trace.lastIsNow e he
      exact event_follows hu (hinv.trace.index_last he) hacc hpc hmem

/-! ### What an instruction writes, by its opcode -/

/-- The two sources of the program counter (R75). -/
theorem exec_pc {i : Instr} {s t : State} (h : exec i s = .next t) :
    t.pc = if i.opcode = .jmp ∨ (i.opcode = .bnz ∧ s.acc ≠ 0) then i.operand else s.pc + 1 := by
  cases i with
  | jmp a => cases h; simp [Instr.opcode, Instr.operand, pcMux, target]
  | bnz a =>
    cases h
    by_cases hacc : s.acc = 0 <;>
      simp [Instr.opcode, Instr.operand, pcMux, target, nextAddr, State.z, zeroFlag, hacc]
  | clear | inc | add | dec | load | store => cases h; simp [Instr.opcode, nextAddr]

theorem exec_keeps_acc_of_opcode {i : Instr} {s t : State}
    (hi : i.opcode ∉ [Opcode.clear, .inc, .add, .dec, .load]) (h : exec i s = .next t) : t.acc = s.acc := by
  refine exec_keeps_acc (a := i.operand) ?_ h
  cases i with
  | jmp | bnz | store => simp [Instr.operand]
  | clear | inc | add | dec | load => simp [Instr.opcode] at hi

theorem exec_keeps_mem {i : Instr} {s t : State} (hi : i.opcode ≠ .store) (h : exec i s = .next t) :
    t.mem = s.mem := by
  rcases exec_mem_cases h with hsame | ⟨a, rfl, _⟩
  · exact hsame
  · exact absurd rfl hi

/-- Settles O22: the step's program counter is the one the decoded instruction selects. -/
theorem programCounterSelection : Obligations.ProgramCounterSelection := by
  intro s t hr ha h
  obtain ⟨u, hu, rfl⟩ := step_enabled hr ha h
  rw [State.finish_pc, exec_pc hu, ← operand_decode]
  rfl

/-- Settles O30: the step keeps what the effect of the decoded instruction keeps, and counts. -/
theorem onlyTheNamedOpcodesWrite : Obligations.OnlyTheNamedOpcodesWrite := by
  intro s t hr ha h
  obtain ⟨u, hu, rfl⟩ := step_enabled hr ha h
  obtain ⟨hsteps, _⟩ := exec_keeps_run hu
  refine ⟨by simp [hsteps], fun hi => ?acc, fun hi => ?mem, fun a hne => ?address⟩
  case acc =>
    have hacc : (u.finish s.decoded).acc = s.acc := by simpa using exec_keeps_acc_of_opcode hi hu
    exact ⟨hacc, congrArg zeroFlag hacc⟩
  case mem => simpa using exec_keeps_mem hi hu
  case address =>
    rw [State.finish_mem, exec_mem_read hu] at hne
    by_contra ha
    refine hne (if_neg ?_)
    rintro ⟨_, rfl⟩
    exact ha (operand_decode _)

/-- Settles O32: the event is the one `finish` appends, and nothing it reports changes after it. -/
theorem oneEventAfterEachStep : Obligations.OneEventAfterEachStep := by
  intro s t hr ha h
  obtain ⟨u, hu, rfl⟩ := step_enabled hr ha h
  obtain ⟨hsteps, _, _, _, htrace⟩ := exec_keeps_run hu
  exact ⟨u.event s.decoded, by simp [htrace], by simp [hsteps], opcode_decode _, operand_decode _, by simp, by simp,
    by simp⟩

/-- Settles O29: the effect leaves the trace and the count, which `finish` then extends. -/
theorem stepRunsTheDecodedInstruction : Obligations.StepRunsTheDecodedInstruction := by
  rintro i s t hr ha rfl ht
  obtain ⟨hsteps, _, _, _, htrace⟩ := exec_keeps_run ht
  rw [step_of_exec hr ha ht, State.finish, State.report, State.event, hsteps, htrace]
  rfl

/-! ### Frames -/

/-- Settles O14: the five instructions are not STORE, so they keep memory. -/
theorem accumulatorInstructionsFrame : Obligations.AccumulatorInstructionsFrame := by
  intro k i s t hi h
  have hop : ∀ j ∈ [Instr.clear k, .inc k, .add k, .dec k, .load k], j.opcode ≠ .store := by simp [Instr.opcode]
  have hmem : t.mem = s.mem := exec_keeps_mem (hop i hi) h
  exact ⟨fun a => by rw [hmem], hmem, exec_keeps_run h⟩

/-- Settles O15: JMP and BNZ are not STORE, so they keep memory, and they keep the accumulator. -/
theorem controlTransferFrame : Obligations.ControlTransferFrame := by
  intro a i s t hi h
  have hop : ∀ j ∈ [Instr.jmp a, .bnz a], j.opcode ≠ .store := by simp [Instr.opcode]
  have hmem : t.mem = s.mem := exec_keeps_mem (hop i hi) h
  have hacc : t.acc = s.acc := exec_keeps_acc (List.mem_cons_of_mem _ hi) h
  exact ⟨fun b => by rw [hmem], hmem, hacc, congrArg zeroFlag hacc, exec_keeps_run h⟩

/-- Settles O16: STORE is one write, which leaves the reads of every other address. -/
theorem storeFrame : Obligations.StoreFrame := by
  intro a s t h
  have hacc : t.acc = s.acc := exec_keeps_acc (List.mem_cons_self ..) h
  refine ⟨?others, hacc, congrArg zeroFlag hacc, exec_keeps_run h⟩
  case others =>
    rintro d rfl b hb
    cases h
    exact Memory.read_write_of_ne _ _ hb

/-! ### The datapath -/

/-- Row by row of R73's table: what an opcode makes of the state is what the units compute under its signals,
whatever stands at "any". -/
theorem exec_ofFields (o : Opcode) (k : Operand) (s : State) (d : DontCare) :
    exec (Instr.ofFields o k) s = .next (s.units (control d o s.z) k) := by
  cases o <;> rfl

/-- Settles O33: the instruction decoded is the one with the fields that the datapath is given. -/
theorem datapathComputesTheEffect : Obligations.DatapathComputesTheEffect := fun d s =>
  exec_ofFields (opcodeOf s.fetch) (operandOf s.fetch) s d

/-! ### Every step completes -/

theorem step_of_waiting {s : State} (hr : s.status = .running) (ha : s.awaiting = true) :
    step s = .next s.takeReply := by
  simp [step, hr, ha]

theorem step_completes (s : State) : ∃ t, step s = .next t := by
  by_cases hr : s.status = .running
  · cases ha : s.awaiting with
    | true => exact ⟨_, step_of_waiting hr ha⟩
    | false =>
      obtain ⟨u, hu⟩ := exec_completes s.decoded s
      exact ⟨_, step_of_exec hr ha hu⟩
  · exact ⟨s, step_of_ended hr⟩

/-! ### A look at the first of the answers to come -/

section
variable (s : State) (rest : List (Option Reply))

/-- No answer there yet: the core waits (R84). -/
theorem takeReply_none : State.takeReply { s with replies := none :: rest } =
    { s with replies := rest, awaiting := true } := rfl

/-- An abort ends the run whatever the step count (R83, R124). -/
theorem takeReply_abort : State.takeReply { s with replies := some .abort :: rest } =
    { s with replies := rest, status := .aborted, awaiting := false } := rfl

/-- A `continue` ends the run exactly at the budget (R80). -/
theorem takeReply_cont : State.takeReply { s with replies := some .cont :: rest } =
    { s with replies := rest, status := if s.steps = Config.stepBudget then .done else s.status,
             awaiting := false } := by
  by_cases hb : s.steps = Config.stepBudget <;> simp [State.takeReply, State.answered, hb]

/-- An answer ends the wait, so a look that finds one does the same whether or not it was awaited. -/
theorem takeReply_some_awaiting (r : Reply) :
    State.takeReply { s with replies := some r :: rest, awaiting := true } =
      State.takeReply { s with replies := some r :: rest } := by
  cases r <;> rfl

end

/-! ### The observer's side of a step -/

section
variable {s u : State} (hr : s.status = .running) (ha : s.awaiting = false) (hu : exec s.decoded s = .next u)
  (rs : List (Option Reply))
include hr ha hu

/-- With other answers to come and another trace before it, a step executes the same instruction with the same effect:
the answers are looked at after it, in `finish`, and the trace only grows there (R84). -/
theorem step_with_observer (tr : List StepEvent) : step { s with replies := rs, trace := tr } =
    .next (State.finish { u with replies := rs, trace := tr } s.decoded) := by
  obtain ⟨hsteps, hstatus, hawaiting, _, _⟩ := exec_keeps_run hu
  have hexec : exec s.decoded { s with replies := rs, trace := tr } = .next { u with replies := rs, trace := tr } := by
    rw [hsteps, hstatus, hawaiting]
    exact exec_sees_core hu { s with replies := rs, trace := tr }
  exact step_of_exec (s := { s with replies := rs, trace := tr }) hr ha hexec

/-- With other answers to come only, a step reports the same effect and looks at the other answers. -/
theorem step_with_replies : step { s with replies := rs } =
    .next (State.takeReply { u.report s.decoded with replies := rs }) := by
  obtain ⟨_, _, _, _, htrace⟩ := exec_keeps_run hu
  refine (step_with_observer hr ha hu rs s.trace).trans ?_
  rw [← htrace]
  rfl

end

/-- Settles O46: the two steps are the same effect of the same instruction, each followed by `finish`. -/
theorem observerCannotTouchTheCore : Obligations.ObserverCannotTouchTheCore := by
  intro s t v rs tr hr ha ht hv
  obtain ⟨u, hu, rfl⟩ := step_enabled hr ha ht
  rw [step_with_observer hr ha hu rs tr] at hv
  cases hv
  simp [State.event]

/-- Settles O47: with `continue` or `abort` to come, the step looks at the answer from the same report. -/
theorem abortChangesOnlyTheStatus : Obligations.AbortChangesOnlyTheStatus := by
  intro s rest hr ha
  obtain ⟨u, hu⟩ := exec_completes s.decoded s
  obtain ⟨_, hstatus, _⟩ := exec_keeps_run hu
  rw [step_with_replies hr ha hu, step_with_replies hr ha hu, takeReply_cont, takeReply_abort]
  refine ⟨_, rfl, rfl, ?status, rfl, rfl⟩
  case status => rw [State.report_status, hstatus, hr]; rfl

/-! ### Waiting for an answer -/

/-- After `d` looks in vain the awaited answer does what it would have done at the first look. -/
theorem run_takeReply_replicate_none {s : State} (hr : s.status = .running) (r : Reply) (d : Nat)
    (rest : List (Option Reply)) :
    run d (State.takeReply { s with replies := List.replicate d none ++ some r :: rest }) =
      .next (State.takeReply { s with replies := some r :: rest }) := by
  induction d generalizing s with
  | zero => rfl
  | succ d ih =>
    have hlook := step_of_waiting (s := { s with
      replies := List.replicate d none ++ some r :: rest, awaiting := true }) hr rfl
    rw [List.replicate_succ, List.cons_append, takeReply_none, run_of_step hlook, ← takeReply_some_awaiting]
    exact ih (s := { s with awaiting := true }) hr

/-- Settles O45: the step reports the same effect, and the looks after it come to the same answer. -/
theorem lateAnswersOnlyDelay : Obligations.LateAnswersOnlyDelay := by
  refine ⟨fun s r d rest hr ha => ?late, fun s rest hr ha => ?look⟩
  case late =>
    obtain ⟨u, hu⟩ := exec_completes s.decoded s
    obtain ⟨_, hstatus, _⟩ := exec_keeps_run hu
    rw [run_of_step (step_with_replies hr ha hu _), step_with_replies hr ha hu]
    exact run_takeReply_replicate_none (s := u.report s.decoded) (hstatus.trans hr) r d rest
  case look =>
    rw [step_of_waiting (s := { s with replies := none :: rest }) hr ha, takeReply_none, ← ha]

/-! ### Runs with answers given without delay -/

/-- A step is enabled and the answers to come are `rs`, none of them late. -/
structure State.Ready (s : State) (rs : List Reply) : Prop where
  running     : s.status = .running
  notAwaiting : s.awaiting = false
  toCome      : s.replies = rs.map some

theorem launch_ready (img : Image) (rs : List Reply) : (State.launch img (rs.map some)).Ready rs := ⟨rfl, rfl, rfl⟩

/-- A look when no answer is late: an abort ends the run, else the budget ends it, else the next step is ready. -/
theorem takeReply_on_time {s : State} {rs : List Reply} (hr : s.status = .running) (hrs : s.replies = rs.map some) :
    (rs.head? = some .abort ∧ s.takeReply.status = .aborted) ∨
    (rs.head? ≠ some .abort ∧ s.steps = 32 ∧ s.takeReply.status = .done) ∨
    (rs.head? ≠ some .abort ∧ s.steps ≠ 32 ∧ s.takeReply.Ready rs.tail) := by
  have hcont : s.replies = [] ∨ s.replies.head? = some (some .cont) → rs.head? ≠ some .abort := by
    rw [hrs, List.head?_map]
    rintro (hnil | hhead) habort
    · simp [List.map_eq_nil_iff.mp hnil] at habort
    · simp [habort] at hhead
  rcases s.takeReply_cases with ⟨hhead, h⟩ | ⟨hhead, h⟩ | ⟨hhead, hb, h⟩ | ⟨hhead, hb, h⟩
  · exact .inl ⟨by simpa [hrs] using hhead, by rw [h]⟩
  · simp [hrs] at hhead
  · exact .inr (.inl ⟨hcont hhead, hb, by rw [h]⟩)
  · exact .inr (.inr ⟨hcont hhead, hb, by rw [h]; exact ⟨hr, rfl, by simp [hrs]⟩⟩)

/-- What a step does when no answer is late. -/
theorem step_of_ready {s : State} {rs : List Reply} (h : s.Ready rs) :
    ∃ t, step s = .next t ∧ t.steps = s.steps + 1 ∧
      ((rs.head? = some .abort ∧ t.status = .aborted) ∨
       (rs.head? ≠ some .abort ∧ t.steps = 32 ∧ t.status = .done) ∨
       (rs.head? ≠ some .abort ∧ t.steps ≠ 32 ∧ t.Ready rs.tail)) := by
  obtain ⟨hr, ha, hrs⟩ := h
  obtain ⟨u, hu⟩ := exec_completes s.decoded s
  obtain ⟨hsteps, hstatus, _, hreplies, _⟩ := exec_keeps_run hu
  refine ⟨_, step_of_exec hr ha hu, by simp [hsteps], ?_⟩
  rw [State.finish_steps]
  exact takeReply_on_time (s := u.report s.decoded) (hstatus.trans hr) (hreplies.trans hrs)

/-- With no abort among the first `n` answers and the budget not reached, `n` steps leave the next one ready. -/
theorem run_of_ready {s : State} {rs : List Reply} {n : Nat} (h : s.Ready rs) (hn : s.steps + n < 32)
    (hrs : .abort ∉ rs.take n) : ∃ t, run n s = .next t ∧ t.steps = s.steps + n ∧ t.Ready (rs.drop n) := by
  induction n generalizing s rs with
  | zero => exact ⟨s, rfl, rfl, h⟩
  | succ n ih =>
    obtain ⟨t, ht, hsteps, ⟨hhead, _⟩ | ⟨_, hb, _⟩ | ⟨_, _, hready⟩⟩ := step_of_ready h
    · obtain ⟨rest, rfl⟩ := List.head?_eq_some_iff.mp hhead
      exact absurd (List.mem_cons_self ..) hrs
    · omega
    · have htail : rs.tail.take n = (rs.take (n + 1)).drop 1 := by simp [List.drop_take]
      have hrs' : .abort ∉ rs.tail.take n := fun hmem => hrs (List.mem_of_mem_drop (htail ▸ hmem))
      obtain ⟨v, hv, hvsteps, hvready⟩ := ih hready (by omega) hrs'
      exact ⟨v, by rw [run_of_step ht, hv], by omega, by simpa [List.drop_tail] using hvready⟩

/-- A run without an abort is done when the budget is used up. -/
theorem run_to_budget {s : State} {rs : List Reply} (h : s.Ready rs) (hlt : s.steps < 32)
    (hrs : .abort ∉ rs.take (32 - s.steps)) : ∃ t, run (32 - s.steps) s = .next t ∧ t.status = .done ∧ t.steps = 32 := by
  obtain ⟨n, hn⟩ : ∃ n, 32 - s.steps = n + 1 := ⟨31 - s.steps, by omega⟩
  rw [hn] at hrs ⊢
  obtain ⟨u, hu, husteps, hready⟩ := run_of_ready (n := n) h (by omega)
    fun hmem => hrs (List.take_subset_take_left _ (Nat.le_succ n) hmem)
  obtain ⟨t, ht, hsteps, ⟨hhead, _⟩ | ⟨_, _, hdone⟩ | ⟨_, hb, _⟩⟩ := step_of_ready hready
  · rw [List.head?_drop, ← List.getElem?_take_of_lt (Nat.lt_succ_self n)] at hhead
    exact absurd (List.mem_of_getElem? hhead) hrs
  · exact ⟨t, by rw [run_add hu, run_of_step ht, run], hdone, by omega⟩
  · omega

/-- The first abort ends the run, after the step it answers. -/
theorem run_to_abort {s : State} {rs : List Reply} {n : Nat} (h : s.Ready rs) (hn : s.steps + n < 32)
    (habort : rs[n]? = some .abort) (hrs : .abort ∉ rs.take n) :
    ∃ t, run (n + 1) s = .next t ∧ t.status = .aborted ∧ t.steps = s.steps + n + 1 := by
  obtain ⟨u, hu, husteps, hready⟩ := run_of_ready h hn hrs
  rw [← List.head?_drop] at habort
  obtain ⟨t, ht, hsteps, ⟨_, haborted⟩ | ⟨hne, _⟩ | ⟨hne, _⟩⟩ := step_of_ready hready
  · exact ⟨t, by rw [run_add hu, run_of_step ht, run], haborted, by omega⟩
  · exact absurd habort hne
  · exact absurd habort hne

/-- Every state of a run from a launch has one event for each step. -/
theorem trace_length_of_run {img : Image} {rs : List (Option Reply)} {n : Nat} {t : State}
    (h : run n (State.launch img rs) = .next t) : t.trace.length = t.steps :=
  (run_keeps everyStepKeepsTheInvariant (invariantHoldsAtReset.2 img rs) h).trace.onePerStep

/-- A run that has ended answers the same state for any further steps. -/
theorem run_past_end {s t : State} {n : Nat} (h : run n s = .next t) (hended : t.status ≠ .running) (m : Nat) :
    run (n + m) s = .next t := by
  rw [run_add h, endedRunStaysPut t m hended]

/-- Settles O41: the launch is ready, and its run goes to the budget or to the first abort. -/
theorem runEndsAtBudgetOrFirstAbort : Obligations.RunEndsAtBudgetOrFirstAbort := by
  intro img rs
  have hready : (State.launch img (rs.map some)).Ready rs := launch_ready img rs
  refine ⟨fun hrs => ?budget, fun n hn habort hrs => ?abort⟩
  case budget =>
    obtain ⟨t, ht, hdone, hsteps⟩ := run_to_budget hready (by simp) hrs
    refine ⟨t, ht, hdone, hsteps, (trace_length_of_run ht).trans hsteps, fun n hn u hu => ?_,
      run_past_end ht (by simp [hdone])⟩
    obtain ⟨v, hv, _, hrunning, _⟩ := run_of_ready (n := n) hready (by simpa using hn)
      fun hmem => hrs (List.take_subset_take_left _ hn.le hmem)
    rw [hu] at hv
    cases hv
    exact hrunning
  case abort =>
    obtain ⟨t, ht, haborted, hsteps⟩ := run_to_abort hready (by simpa using hn) habort hrs
    rw [State.launch_steps, Nat.zero_add] at hsteps
    exact ⟨t, ht, haborted, hsteps, (trace_length_of_run ht).trans hsteps, run_past_end ht (by simp [haborted])⟩

/-- Settles O42: the invariant puts an enabled step below the budget, and with no answers to come none is an abort. -/
theorem runUsesUpTheBudget : Obligations.RunUsesUpTheBudget := by
  intro s hinv hr ha hrs
  exact run_to_budget (rs := []) ⟨hr, ha, hrs⟩ (hinv.run.enabledBelow hr ha) (by simp)

/-! ### The host's moves -/

/-- Settles O52: an answer only extends the answers to come, so the step after it has the same effect and event. -/
theorem hostCannotWriteInjectOrSkip : Obligations.HostCannotWriteInjectOrSkip := by
  refine ⟨fun s r => ⟨rfl, rfl, rfl, rfl, rfl, rfl, rfl⟩, fun s t r hr ha h => ?step⟩
  case step =>
    obtain ⟨u, hu, rfl⟩ := step_enabled hr ha h
    obtain ⟨hsteps, _⟩ := exec_keeps_run hu
    refine ⟨_, step_with_replies hr ha hu (s.replies ++ [r]), ?_⟩
    simp [hsteps]

/-- Settles O53, by induction on the session: a step answers the same state, an answer touches the answers only. -/
theorem endedRunCannotBeResumed : Obligations.EndedRunCannotBeResumed := by
  intro acts s hended hlaunch
  induction acts generalizing s with
  | nil => exact ⟨s, rfl, rfl⟩
  | cons act acts ih =>
    have hrest : ∀ img, Action.host (.launch img) ∉ acts := fun img hmem => hlaunch img (List.mem_cons_of_mem _ hmem)
    cases act with
    | core =>
      rw [session, step_of_ended hended]
      exact ih s hended hrest
    | host m =>
      cases m with
      | launch img => exact absurd (List.mem_cons_self ..) (hlaunch img)
      | answer r => exact ih (s.hostMove (.answer r)) hended hrest

theorem session_of_step {s t : State} (h : step s = .next t) (acts : List Action) :
    session (.core :: acts) s = session acts t := by rw [session, h]

theorem session_completes (acts : List Action) (s : State) : ∃ t, session acts s = .next t := by
  induction acts generalizing s with
  | nil => exact ⟨s, rfl⟩
  | cons act acts ih =>
    cases act with
    | host m => exact ih (s.hostMove m)
    | core =>
      obtain ⟨t, ht⟩ := step_completes s
      rw [session_of_step ht]
      exact ih t

/-- A session is its first part and then the rest from the state that part ends in. -/
theorem session_append {acts : List Action} {s t : State} (h : session acts s = .next t) (rest : List Action) :
    session (acts ++ rest) s = session rest t := by
  induction acts generalizing s with
  | nil => cases h; rfl
  | cons act acts ih =>
    cases act with
    | host m => exact ih h
    | core =>
      obtain ⟨u, hu⟩ := step_completes s
      rw [session_of_step hu] at h
      rw [List.cons_append, session_of_step hu, ih h]

/-- The invariant does not speak of the answers to come, and a launch starts in a state that has it. -/
theorem hostMove_keeps_inv (s : State) (m : HostMove) (h : s.Inv) : (s.hostMove m).Inv := by
  cases m with
  | launch img => exact invariantHoldsAtReset.2 img []
  | answer r =>
    obtain ⟨hmemory, ⟨hle, hdone, hbelow, hawaiting, haborted⟩, ⟨hone, hnumbered, hsnapshots, hlast⟩⟩ := h
    exact ⟨hmemory, ⟨hle, hdone, hbelow, hawaiting, haborted⟩, ⟨hone, hnumbered, hsnapshots, hlast⟩⟩

/-- Settles O54: steps and moves complete and keep the invariant, and a launch does not look at the state it ends. -/
theorem everySessionKeepsTheInvariant : Obligations.EverySessionKeepsTheInvariant := by
  refine ⟨hostMove_keeps_inv, fun acts s hs => ?keeps, fun acts rest img s => ?launch⟩
  case keeps =>
    obtain ⟨t, ht⟩ := session_completes acts s
    exact ⟨t, ht, session_keeps everyStepKeepsTheInvariant hostMove_keeps_inv hs ht⟩
  case launch =>
    obtain ⟨t, ht⟩ := session_completes acts s
    exact session_append ht _

/-! ### Placing a word -/

/-- To write a word into the memory of an image is to hold the image with that word. -/
theorem Memory.write_ofImage (img : Image) (a : Addr) (v : Word) :
    (Memory.ofImage img).write a v = Memory.ofImage (img.set a.toNat v) := by
  refine canonicalMemoriesAreDeterminedByTheirReads _ _ (Memory.wf_write (Memory.wf_ofImage img) a v)
    (Memory.wf_ofImage _) fun b => ?_
  rw [Memory.read_write, Memory.read_ofImage, Memory.read_ofImage, Vector.getElem_set]
  simp [BitVec.toNat_inj, eq_comm]

/-- Settles O55: the launched state's memory is that of an image, and the placing writes it at address 0. -/
theorem placingAfterLaunchIsALaunch : Obligations.PlacingAfterLaunchIsALaunch := by
  intro img rs w
  have hmem := Memory.write_ofImage img 0 (BitVec.ofNat 8 w)
  rw [State.withFetchWord, State.memWrite, State.launch_mem, State.launch_pc, hmem]
  rfl

/-- The placed word is the one fetched, in any state. -/
theorem withFetchWord_decoded (s : State) (w : Nat) :
    (s.withFetchWord 8 w).decoded = decode (BitVec.ofNat 8 w) :=
  congrArg decode (Memory.read_write_self s.mem s.pc _)

/-- Settles O38: the word is fetched from where it was placed, and a step is enabled. -/
theorem placedWordIsTheNextInstruction : Obligations.PlacedWordIsTheNextInstruction := by
  intro s w hw
  refine ⟨rfl, rfl, rfl, rfl, ?decoded, ?first⟩
  case decoded => rw [withFetchWord_decoded, decodeTableWord, if_pos ⟨rfl, hw⟩]
  case first =>
    obtain ⟨t, ht⟩ := exec_completes (decode (BitVec.ofNat 8 w)) (State.reset.withFetchWord 8 w)
    obtain ⟨hsteps, _⟩ := exec_keeps_run ht
    have hstep := step_of_exec (s := State.reset.withFetchWord 8 w) rfl rfl (withFetchWord_decoded _ w ▸ ht)
    exact ⟨t, _, ht, hstep, by simp, by simp, by simp, by rw [State.finish_steps, hsteps]; rfl⟩

end Sys2Proof.Machine

namespace Sys2Proof.Machine

/-! ### The arithmetic of the ALU -/

section
variable (a : Word) (j k : Operand)

@[simp] theorem alu_clr : alu .clr a k = 0 := rfl
@[simp] theorem alu_inc : alu .inc a k = a + 1 := rfl
@[simp] theorem alu_add : alu .add a k = a + immediate k := rfl
@[simp] theorem alu_dec : alu .dec a k = a - 1 := rfl

@[simp] theorem toNat_immediate : (immediate k).toNat = k.toNat :=
  BitVec.toNat_setWidth_of_le (by decide)

theorem toNat_nextAddr (b : Addr) : (nextAddr b).toNat = (b.toNat + 1) % 32 := BitVec.toNat_add b 1

theorem toNat_alu_inc : (alu .inc a k).toNat = (a.toNat + 1) % 256 := BitVec.toNat_add a 1

theorem toNat_alu_add : (alu .add a k).toNat = (a.toNat + k.toNat) % 256 := by
  rw [alu_add, BitVec.toNat_add, toNat_immediate]

/-- To take one away is to add 255 modulo 256. -/
theorem toNat_alu_dec : (alu .dec a k).toNat = (a.toNat + 255) % 256 := by
  rw [alu_dec, BitVec.toNat_sub, Nat.add_comm]
  rfl

/-! ### The identities of the arithmetic -/

theorem alu_dec_inc : alu .dec (alu .inc a j) k = a := BitVec.add_sub_cancel a 1

theorem alu_inc_dec : alu .inc (alu .dec a j) k = a := BitVec.sub_add_cancel a 1

theorem toNat_alu_add_add : (alu .add (alu .add a j) k).toNat = (a.toNat + j.toNat + k.toNat) % 256 := by
  rw [toNat_alu_add, toNat_alu_add, Nat.mod_add_mod]

theorem alu_add_add_comm : alu .add (alu .add a j) k = alu .add (alu .add a k) j := add_right_comm a _ _

theorem alu_add_inc_comm : alu .add (alu .inc a k) j = alu .inc (alu .add a j) k := add_right_comm a _ _

theorem alu_add_dec_comm : alu .add (alu .dec a k) j = alu .dec (alu .add a j) k := sub_add_eq_add_sub a _ _

theorem alu_add_one : alu .add a 1 = alu .inc a k := rfl

/-- No ADD does what DEC does, whatever the accumulator: an operand is at most 31, and DEC adds 255. -/
theorem alu_add_ne_alu_dec : alu .add a j ≠ alu .dec a k := by
  intro h
  have hsum : (a.toNat + j.toNat) % 256 = (a.toNat + 255) % 256 := by
    rw [← toNat_alu_add, h, toNat_alu_dec]
  omega

theorem toNat_alu_add_clr : (alu .add (alu .clr a j) k).toNat = k.toNat := by
  rw [alu_clr, alu_add, zero_add, toNat_immediate]

/-- 256 INCs add 256, which is 0 in a word. -/
theorem alu_inc_iterate_256 : (fun x => alu .inc x k)^[256] a = a := by
  have hzero : 256 • (1 : Word) = 0 := by decide
  calc (fun x => alu .inc x k)^[256] a
      = a + 256 • (1 : Word) := congrFun (add_right_iterate (1 : Word) 256) a
    _ = a := by rw [hzero, add_zero]

/-- 256 DECs undo 256 INCs, and those restore the accumulator. -/
theorem alu_dec_iterate_256 : (fun x => alu .dec x k)^[256] a = a := by
  have hundo : Function.LeftInverse (fun x => alu .dec x k) (fun x => alu .inc x k) := fun x => alu_dec_inc x k k
  calc (fun x => alu .dec x k)^[256] a
      = (fun x => alu .dec x k)^[256] ((fun x => alu .inc x k)^[256] a) := by rw [alu_inc_iterate_256]
    _ = a := hundo.iterate 256 a

end

/-- Settles O19, one identity after the other; after CLEAR both accumulators are the same 0. -/
theorem arithmeticIdentities : Obligations.ArithmeticIdentities :=
  ⟨fun a j k => ⟨alu_dec_inc a j k, alu_inc_dec a j k, toNat_alu_add_add a j k, alu_add_add_comm a j k,
      alu_add_inc_comm a j k, alu_add_dec_comm a j k, alu_add_one a k, fun m => ⟨a, alu_add_ne_alu_dec a m k⟩,
      toNat_alu_add_clr a j k⟩,
    fun a k => ⟨alu_inc_iterate_256 a k, alu_dec_iterate_256 a k⟩,
    fun _ _ _ _ => rfl⟩

/-! ### CLEAR, INC, ADD and DEC -/

/-- Each of the four runs its own ALU operation on the accumulator and its operand, in every state. -/
theorem exec_eq_aluStep (k : Operand) (s : State) {i : Instr} {op : AluOp}
    (h : (i, op) ∈ [(Instr.clear k, AluOp.clr), (.inc k, .inc), (.add k, .add), (.dec k, .dec)]) :
    exec i s = .next (s.aluStep op k) := by
  simp only [List.mem_cons, Prod.mk.injEq, List.not_mem_nil, or_false] at h
  rcases h with ⟨rfl, rfl⟩ | ⟨rfl, rfl⟩ | ⟨rfl, rfl⟩ | ⟨rfl, rfl⟩ <;> rfl

/-- An ALU step changes the accumulator and the program counter only. -/
theorem aluStep_eq (s : State) (op : AluOp) (k : Operand) :
    s.aluStep op k = { s with acc := alu op s.acc k, pc := nextAddr s.pc } := rfl

theorem aluStep_z_iff (s : State) (op : AluOp) (k : Operand) :
    (s.aluStep op k).z = true ↔ (alu op s.acc k).toNat = 0 := by
  rw [State.z, zeroFlag_iff, State.aluStep_acc, ← BitVec.toNat_inj]
  rfl

/-- Settles O6: the ALU answers 0 whatever it is given. -/
theorem clearZeroesTheAccumulator : Obligations.ClearZeroesTheAccumulator := fun k s =>
  ⟨exec_eq_aluStep k s (i := .clear k) (op := .clr) (by simp), (zeroFlag_iff 0).mpr rfl⟩

/-- Settles O7: of the 256 accumulators only 255 has 0 as its successor. -/
theorem incAddsOne : Obligations.IncAddsOne := by
  intro k s
  refine ⟨s.aluStep .inc k, exec_eq_aluStep k s (by simp), aluStep_eq s .inc k, toNat_alu_inc s.acc k,
    toNat_nextAddr s.pc, ?zero⟩
  case zero =>
    rw [aluStep_z_iff, toNat_alu_inc]
    bv_omega

/-- Settles O8: the ALU's sum is that of the numbers modulo 256, and `Z` looks at it. -/
theorem addAddsTheImmediate : Obligations.AddAddsTheImmediate := by
  intro k s
  refine ⟨s.aluStep .add k, exec_eq_aluStep k s (by simp), aluStep_eq s .add k, toNat_alu_add s.acc k,
    toNat_nextAddr s.pc, ?zero⟩
  case zero => rw [aluStep_z_iff, toNat_alu_add]

/-- Settles O9: of the 256 accumulators only 1 has 0 as its predecessor. -/
theorem decSubtractsOne : Obligations.DecSubtractsOne := by
  intro k s
  refine ⟨s.aluStep .dec k, exec_eq_aluStep k s (by simp), aluStep_eq s .dec k, toNat_alu_dec s.acc k,
    toNat_nextAddr s.pc, ?zero⟩
  case zero =>
    rw [aluStep_z_iff, toNat_alu_dec]
    bv_omega

/-- Settles O18: the natural numbers' remainders are the integers', DEC's 255 being -1 modulo 256. -/
theorem arithmeticWrapsSilently : Obligations.ArithmeticWrapsSilently := by
  refine ⟨fun a b => ⟨alu_clr a b, ?inc, ?add, ?dec⟩, fun k s i op h => ⟨_, exec_eq_aluStep k s h, aluStep_eq s op k⟩⟩
  case inc => rw [toNat_alu_inc]; omega
  case add => rw [toNat_alu_add]; omega
  case dec => rw [toNat_alu_dec]; omega

end Sys2Proof.Machine

namespace Sys2Proof.Machine

/-! ### JMP and BNZ -/

/-- JMP in every state: the operand is the next program counter (R100). -/
theorem exec_jmp (a : Operand) (s : State) : exec (.jmp a) s = .next { s with pc := a } := rfl

theorem exec_jmp_self (s : State) : exec (.jmp s.pc) s = .next s := rfl

theorem exec_bnz_fallsThrough (a : Operand) {s : State} (hz : s.z = true) :
    exec (.bnz a) s = .next { s with pc := s.pc + 1 } := by
  simp [exec, execBnz, State.setPc, pcMux, nextAddr, hz]

theorem State.z_eq_false_iff (s : State) : s.z = false ↔ s.acc ≠ 0 := by
  rw [← Bool.not_eq_true, State.z, zeroFlag_iff]

/-- ADD 0 leaves the accumulator, so it only goes on to the next address. -/
theorem exec_add_zero (s : State) : exec (.add 0) s = .next { s with pc := s.pc + 1 } := by
  have hacc : alu .add s.acc 0 = s.acc := add_zero s.acc
  rw [exec_eq_aluStep 0 s (i := .add 0) (op := .add) (by simp), aluStep_eq, hacc]
  rfl

/-- A step whose instruction only sets the program counter, as JMP and a taken BNZ do: the rest is the count. -/
theorem step_of_transfer {a : Addr} {s t : State} (hr : s.status = .running) (ha : s.awaiting = false)
    (hexec : exec s.decoded s = .next { s with pc := a }) (h : step s = .next t) :
    t.pc = a ∧ t.acc = s.acc ∧ t.mem = s.mem ∧ t.steps = s.steps + 1 := by
  obtain rfl : State.finish { s with pc := a } s.decoded = t := by simpa [step_of_exec hr ha hexec] using h
  simp

/-- Settles O10: the next address below 31 is the sequential one, which ADD 0 goes on to as well. -/
theorem jmpSetsTheProgramCounter : Obligations.JmpSetsTheProgramCounter := by
  refine ⟨fun a s => ⟨exec_jmp a s, rfl⟩, decode_ofNat .jmp, resolve_of_mem_spellings .jmp _ (by decide),
    exec_jmp_self, fun a s hlt hnext => ?next, fun a s t hr ha hi h => ?step⟩
  case next =>
    obtain rfl : a = s.pc + 1 := by bv_omega
    exact ⟨exec_jmp _ s, (exec_jmp _ s).trans (exec_add_zero s).symm⟩
  case step =>
    have hdecoded : s.decoded = .jmp a := hi
    exact step_of_transfer hr ha (hdecoded ▸ exec_jmp a s) h

/-- Settles O11: the two outcomes of BNZ, by `Z`, which is 1 exactly when the accumulator is 0. -/
theorem bnzBranchesOnNonzero : Obligations.BnzBranchesOnNonzero := by
  refine fun a s => ⟨?byAcc, exec_bnz_fallsThrough a, exec_bnz_taken a⟩
  case byAcc =>
    split_ifs with hacc
    · exact exec_bnz_fallsThrough a ((zeroFlag_iff s.acc).mpr hacc)
    · exact exec_bnz_taken a (s.z_eq_false_iff.mpr hacc)

/-- Settles O21: memory stays, so the next word fetched is the one that stood at the target. -/
theorem targetsAreAbsoluteAndImmediate : Obligations.TargetsAreAbsoluteAndImmediate := by
  refine ⟨fun a s => ⟨a.isLt, _, exec_jmp a s, rfl⟩,
    fun a s hacc => ⟨_, exec_bnz_taken a (s.z_eq_false_iff.mpr hacc), rfl⟩, fun a s t hr ha hi h => ?next⟩
  case next =>
    have hexec : exec s.decoded s = .next { s with pc := a } := by
      rw [State.decoded, State.fetch, State.memRead]
      rcases hi with hjmp | ⟨hbnz, hacc⟩
      · rw [hjmp, exec_jmp]
      · rw [hbnz, exec_bnz_taken a (s.z_eq_false_iff.mpr hacc)]
    obtain ⟨hpc, _, hmem, _⟩ := step_of_transfer hr ha hexec h
    exact ⟨hpc, by rw [State.decoded, State.fetch, State.memRead, hpc, hmem]⟩

/-! ### A jump to itself -/

/-- The state `t` has the accumulator, program counter and memory of `s`. -/
def State.SameCore (s t : State) : Prop := t.acc = s.acc ∧ t.pc = s.pc ∧ t.mem = s.mem

theorem State.SameCore.decoded_eq {s t : State} (h : s.SameCore t) : t.decoded = s.decoded := by
  obtain ⟨_, hpc, hmem⟩ := h
  rw [State.decoded, State.fetch, State.memRead, hpc, hmem]
  rfl

/-- A step at a jump to itself, one that waits or finds the run ended too, stays there. -/
theorem step_of_self_jump {s t : State} (hi : s.decoded = .jmp s.pc) (h : step s = .next t) : s.SameCore t := by
  rcases step_cases h with ⟨_, rfl⟩ | ⟨_, _, rfl⟩ | ⟨_, _, u, hu, rfl⟩
  · exact ⟨rfl, rfl, rfl⟩
  · exact ⟨s.takeReply_acc, s.takeReply_pc, s.takeReply_mem⟩
  · rw [hi, exec_jmp_self] at hu
    cases hu
    simp [State.SameCore]

theorem run_of_self_jump {s t : State} {n : Nat} (hi : s.decoded = .jmp s.pc) (h : run n s = .next t) :
    s.SameCore t := by
  refine run_keeps (P := s.SameCore) (fun u v hu huv => ?step) ⟨rfl, rfl, rfl⟩ h
  case step =>
    have hdecoded := hu.decoded_eq
    obtain ⟨hacc, hpc, hmem⟩ := hu
    obtain ⟨hacc', hpc', hmem'⟩ := step_of_self_jump (hdecoded.trans (hpc ▸ hi)) huv
    exact ⟨hacc'.trans hacc, hpc'.trans hpc, hmem'.trans hmem⟩

/-- With an observer that always continues, a run that stays within the budget is done exactly when it has used it
up. -/
theorem run_within_budget {s : State} {n : Nat} (h : s.Ready []) (hlt : s.steps < 32) (hn : s.steps + n ≤ 32) :
    ∃ t, run n s = .next t ∧ t.steps = s.steps + n ∧ (t.status = .done ↔ s.steps + n = 32) := by
  rcases hn.lt_or_eq with hbelow | hbudget
  · obtain ⟨t, ht, hsteps, hrunning, _⟩ := run_of_ready h hbelow (by simp)
    exact ⟨t, ht, hsteps, by simp [hrunning, hbelow.ne]⟩
  · obtain ⟨t, ht, hdone, hsteps⟩ := run_to_budget h hlt (by simp)
    obtain rfl : 32 - s.steps = n := by omega
    exact ⟨t, ht, hsteps.trans hbudget.symm, by simp [hdone, hbudget]⟩

/-- Settles O43: every step of the run stays at the jump, and the run is done when the budget is used up. -/
theorem jumpToItselfHoldsTheMachine : Obligations.JumpToItselfHoldsTheMachine := by
  intro s n hr ha hrs hlt hn hi
  obtain ⟨t, ht, hsteps, hdone⟩ := run_within_budget ⟨hr, ha, hrs⟩ hlt hn
  obtain ⟨hacc, hpc, hmem⟩ := run_of_self_jump hi ht
  exact ⟨t, ht, hacc, hpc, hmem, hsteps, hdone⟩

end Sys2Proof.Machine

namespace Sys2Proof.Machine

/-! ### LOAD, STORE and who accesses memory as data -/

/-- What memory reads as after the effect of a STORE: the accumulator at its operand, every other word as before
(R34, R111). -/
theorem State.read_after_store (s : State) (a b : Operand) :
    (s.memWrite (dataAddress a) s.acc).advance.mem.read b = if b = a then s.acc else s.mem.read b :=
  Memory.read_write s.mem a b s.acc

/-- Only LOAD and STORE access memory as data: any other instruction has the same effect on the rest of the state
with another memory, and leaves that one alone too (R112). -/
theorem exec_with_mem {i : Instr} {s t : State} (hi : i.opcode ∉ [Opcode.load, .store]) (h : exec i s = .next t)
    (m : Memory) : exec i { s with mem := m } = .next { t with mem := m } := by
  cases i with
  | load | store => simp [Instr.opcode] at hi
  | clear | inc | add | dec | jmp | bnz => cases h; rfl

/-- Settles O12: the effect of LOAD is one read into the accumulator, and `Z` looks at what was read. -/
theorem loadCopiesTheWord : Obligations.LoadCopiesTheWord := fun a s =>
  ⟨exec_load a s, zeroFlag_iff (s.mem.read a)⟩

/-- Settles O13: the effect of STORE is one write of the accumulator, which keeps the accumulator and with it `Z`. -/
theorem storeCopiesTheAccumulator : Obligations.StoreCopiesTheAccumulator := fun a s =>
  ⟨_, exec_store a s, rfl, rfl, s.read_after_store a⟩

/-- Settles O20: LOAD is one read, STORE is one write, and the other six have the same effect with any memory. -/
theorem oneAddressingMode : Obligations.OneAddressingMode := by
  refine ⟨fun a s => ⟨_, exec_load a s, rfl, rfl⟩, fun a s => ⟨_, exec_store a s, ?own, fun b hb => ?others⟩,
    fun k i s m hi => ?sixOthers⟩
  case own => rw [s.read_after_store, if_pos rfl]
  case others => rw [s.read_after_store, if_neg hb]
  case sixOthers =>
    have hop : ∀ j ∈ [Instr.clear k, .inc k, .add k, .dec k, .jmp k, .bnz k], j.opcode ∉ [Opcode.load, .store] := by
      simp [Instr.opcode]
    obtain ⟨t, ht⟩ := exec_completes i s
    have hstore : i.opcode ≠ .store := fun h => hop i hi (by simp [h])
    exact ⟨t, _, ht, exec_with_mem (hop i hi) ht m, rfl, exec_keeps_mem hstore ht⟩

/-- Settles O26: the LOAD reads the memory that the STORE leaves, and leaves it as it is. -/
theorem storeThenLoad : Obligations.StoreThenLoad := fun a b s =>
  ⟨_, _, exec_store a s, exec_load b _, s.read_after_store a b, rfl⟩

end Sys2Proof.Machine

namespace Sys2Proof.Machine

/-! ### No fault and no refusal, over a whole run -/

/-- A run completes because its first step does and the rest of it does from the state that step gives. -/
theorem run_completes (n : Nat) (s : State) : ∃ t, run n s = .next t := by
  induction n generalizing s with
  | zero => exact ⟨s, rfl⟩
  | succ n ih =>
    obtain ⟨u, hu⟩ := step_completes s
    rw [run_of_step hu]
    exact ih u

/-- Settles O34: every instruction completes, hence every step and every run (R120). -/
theorem nothingEverFaults : Obligations.NothingEverFaults :=
  ⟨fun s n => run_completes n s, exec_completes⟩

end Sys2Proof.Machine

namespace Sys2Proof.Machine

/-! ### The first step after reset -/

/-- A launched machine fetches from address 0, where its memory holds the image's word 0 (R141). -/
theorem launch_decoded (img : Image) (rs : List (Option Reply)) : (State.launch img rs).decoded = decode img[0] :=
  congrArg decode (Memory.read_ofImage img 0)

/-- Settles O36: a step is enabled, the word it decodes is the image's word 0, and `finish` keeps its effect and
counts one step. -/
theorem firstStepExecutesWordZero : Obligations.FirstStepExecutesWordZero := by
  intro img rs
  obtain ⟨t, ht⟩ := exec_completes (decode img[0]) (State.launch img rs)
  obtain ⟨hsteps, _⟩ := exec_keeps_run ht
  have hstep := step_of_exec (State.launch_status img rs) (State.launch_awaiting img rs) (launch_decoded img rs ▸ ht)
  exact ⟨t, _, ht, hstep, by simp, by simp, by simp, by simp [hsteps]⟩

end Sys2Proof.Machine

namespace Sys2Proof.Machine

/-! ### The words written out from the table -/

/-- Settles O5: each word is the encoding (R52) of the instruction beside it, and the decoder undoes the encoder. -/
theorem wordsFromTheTableDecode : Obligations.WordsFromTheTableDecode :=
  ⟨decode_encode (.clear 31), decode_encode (.inc 0), decode_encode (.add 5), decode_encode (.dec 31),
    decode_encode (.jmp 5), decode_encode (.bnz 12), decode_encode (.load 10), decode_encode (.store 10)⟩

end Sys2Proof.Machine
